-- ==== Sys2Proof/Word.lean ====
section
/-! DEFINITION. The word types of the LSP VM core: bytes, 16-bit words, 2-bit selectors. -/

namespace Sys2Proof

/-- An 8-bit cell of program memory, or one byte of a register (R50, R22). -/
abbrev Byte := BitVec 8

/-- A 16-bit register value, also the storage of the program counter (R20, R26). -/
abbrev Word := BitVec 16

/-- The 2-bit selector of the leading byte: a register index or a vector number (R24, R71). -/
abbrev Sel := BitVec 2

/-- The address of a cell of program memory: "9 address bits" (R50). -/
abbrev CellAddr := BitVec 9

end Sys2Proof
end

