-- ==== Sys2Proof/Config.lean ====
section
/-! DEFINITION. What one implementation fixes (R6, R7), and the parameters the spec leaves open. The numbers of
the opcodes (R73, decision D1) are one table too, `Opcode.number` in Sys2Proof/Decode.lean. -/

namespace Sys2Proof.Config

/-- Cells of program memory seen by the core: exactly 512 (R52, decision D8). -/
def progCells : Nat := 512

/-- What `Reset` records (R33): the content of all the cells that the block sees. The loader has padded a shorter
image, and its padding is part of the content (R52, decision D8; log 18). -/
abbrev Image := Vector Byte progCells

/-- DESIGN CHOICE (log 3), unsafe for the state `State.reset` alone: what a cell that the memory list does not name
reads as. Every `Reset` gives all the cells, and every content of them is some memory list. -/
def unlistedCell : Byte := 0x00#8

/-- `DIAG_EN` (R7, R110, R185, decision D14): whether the diagnostic stream exists. A constant without a body:
every claim holds for both values (log 14). -/
opaque diagEn : Bool

/-- `TICK_PERIOD` (R7, decision D20): OPEN, used by no rule and by no definition of the model (log 15). -/
opaque tickPeriod : Nat

/-- `POLL_INTERVAL` (R7, decision D20): OPEN, used by no rule and by no definition of the model (log 15). -/
opaque pollInterval : Nat

end Sys2Proof.Config
end

