-- ==== Sys2Proof/Syntax.lean ====
section
/-! DEFINITION. The LSP bytecode as syntax: one constructor of `Instr` per row of spec/opcode_table.json, and the
sixteen values of the opcode field by name (R73, R80). -/

namespace Sys2Proof

/-- The sixteen values of the `opc` field by name: the twelve instructions of R73 and the four reserved values of
R80. Their numbers are `Opcode.number` in Sys2Proof/Decode.lean. -/
inductive Opcode where
  | stop | setreg | setout | modout | commit | wait | drjnz | jmp | jmpabs | ivec | isetpc | iret
  | reservedC | reservedD | reservedE | reservedF
  deriving DecidableEq, Repr

/-- One instruction with its operands. The suffixes `B` and `W` are the byte form (`W = 0`) and the word form
(`W = 1`) of R71. Fields that an instruction ignores (R72, R74, R75) are not part of it. -/
inductive Instr where
  /-- STOP, R130. -/
  | stop
  /-- SETREG byte form, R120: general register `sel`, unsigned `imm`. -/
  | setregB (sel : Sel) (imm : Byte)
  /-- SETREG word form, R120. -/
  | setregW (sel : Sel) (imm : Word)
  /-- SETOUT byte form, R121: output register `sel`, `imm` goes to the high byte. -/
  | setoutB (sel : Sel) (imm : Byte)
  /-- SETOUT word form, R121. -/
  | setoutW (sel : Sel) (imm : Word)
  /-- MODOUT byte form, R122: output register `sel`, signed `imm`. -/
  | modoutB (sel : Sel) (imm : Byte)
  /-- MODOUT word form, R122. -/
  | modoutW (sel : Sel) (imm : Word)
  /-- COMMIT, R132. -/
  | commit
  /-- WAIT, R131. -/
  | wait
  /-- DRJNZ byte form, R140: general register `sel`, signed `offset`. -/
  | drjnzB (sel : Sel) (offset : Byte)
  /-- DRJNZ word form, R140. -/
  | drjnzW (sel : Sel) (offset : Word)
  /-- JMP, R141: signed `offset`, always one operand byte. -/
  | jmp (offset : Byte)
  /-- JMPABS byte form, R142: unsigned cell address. -/
  | jmpabsB (addr : Byte)
  /-- JMPABS word form, R142. -/
  | jmpabsW (addr : Word)
  /-- IVEC, R150: the marker of interrupt `vector`. -/
  | ivec (vector : Sel)
  /-- ISETPC byte form, R151: unsigned cell address. -/
  | isetpcB (addr : Byte)
  /-- ISETPC word form, R151. -/
  | isetpcW (addr : Word)
  /-- IRET, R152. -/
  | iret
  /-- Reserved opcode 12, R80. -/
  | reservedC
  /-- Reserved opcode 13, R80. -/
  | reservedD
  /-- Reserved opcode 14, R80. -/
  | reservedE
  /-- Reserved opcode 15, R80. -/
  | reservedF
  deriving DecidableEq, Repr

/-- The opcode of an instruction (R73). -/
def Instr.opcode : Instr → Opcode
  | .stop => .stop
  | .setregB _ _ | .setregW _ _ => .setreg
  | .setoutB _ _ | .setoutW _ _ => .setout
  | .modoutB _ _ | .modoutW _ _ => .modout
  | .commit => .commit
  | .wait => .wait
  | .drjnzB _ _ | .drjnzW _ _ => .drjnz
  | .jmp _ => .jmp
  | .jmpabsB _ | .jmpabsW _ => .jmpabs
  | .ivec _ => .ivec
  | .isetpcB _ | .isetpcW _ => .isetpc
  | .iret => .iret
  | .reservedC => .reservedC
  | .reservedD => .reservedD
  | .reservedE => .reservedE
  | .reservedF => .reservedF

/-- The width flag of an instruction's encoding (R71, R75): 1 for the word forms. -/
def Instr.width : Instr → Bool
  | .setregW _ _ | .setoutW _ _ | .modoutW _ _ | .drjnzW _ _ | .jmpabsW _ | .isetpcW _ => true
  | .stop | .setregB _ _ | .setoutB _ _ | .modoutB _ _ | .commit | .wait | .drjnzB _ _ | .jmp _
  | .jmpabsB _ | .ivec _ | .isetpcB _ | .iret
  | .reservedC | .reservedD | .reservedE | .reservedF => false

/-- The selector of an instruction's encoding (R71, R74): 0 where the instruction does not use it. -/
def Instr.sel : Instr → Sel
  | .setregB r _ | .setregW r _ | .setoutB r _ | .setoutW r _ | .modoutB r _ | .modoutW r _
  | .drjnzB r _ | .drjnzW r _ | .ivec r => r
  | .stop | .commit | .wait | .jmp _ | .jmpabsB _ | .jmpabsW _ | .isetpcB _ | .isetpcW _ | .iret
  | .reservedC | .reservedD | .reservedE | .reservedF => 0#2

end Sys2Proof
end

