-- ==== Sys2Proof/WellFormed.lean ====
section
/-! DEFINITION. Which instructions a well-formed image holds: the twelve valid opcodes. The ranges of the
operands are in their types, so nothing else can be wrong with an instruction. -/

namespace Sys2Proof

/-- Whether the opcode is one of the "12 valid values, 0–11" (R73, R80). -/
def Opcode.valid : Opcode → Bool
  | .reservedC | .reservedD | .reservedE | .reservedF => false
  | .stop | .setreg | .setout | .modout | .commit | .wait | .drjnz | .jmp | .jmpabs | .ivec
  | .isetpc | .iret => true

/-- Whether a loader may put the instruction into a well-formed image (R204 (a), (d)). -/
def Instr.wellFormed (i : Instr) : Bool := i.opcode.valid

end Sys2Proof
end

