-- ==== Sys2Proof/Decode.lean ====
section
/-! DEFINITION. The opcode table (R73), the leading byte (R71), the one width rule (R76), the decoder (R77 to R80),
the encoder, and the host's reading of a table word. -/

namespace Sys2Proof

/-- The one configuration table `OPC` (R73): the number of each opcode. UNVERIFIED (log 1): the numbers are the
spec's own decision D1, the order of the source's table. -/
def Opcode.number : Opcode → BitVec 4
  | .stop => 0
  | .setreg => 1
  | .setout => 2
  | .modout => 3
  | .commit => 4
  | .wait => 5
  | .drjnz => 6
  | .jmp => 7
  | .jmpabs => 8
  | .ivec => 9
  | .isetpc => 10
  | .iret => 11
  | .reservedC => 12
  | .reservedD => 13
  | .reservedE => 14
  | .reservedF => 15

/-- The sixteen opcodes. -/
def Opcode.all : List Opcode :=
  [.stop, .setreg, .setout, .modout, .commit, .wait, .drjnz, .jmp, .jmpabs, .ivec, .isetpc, .iret,
    .reservedC, .reservedD, .reservedE, .reservedF]

/-- The opcode with a given number: the inverse of the table `Opcode.number`. -/
def Opcode.ofNumber (n : BitVec 4) : Opcode :=
  (Opcode.all.find? (fun o => o.number == n)).getD .reservedF

/-! ### The leading byte, R71 -/

/-- `W <- b[7]`. -/
def leadW (b : Byte) : Bool := b.getLsbD 7

/-- `sel <- b[5:4]`. -/
def leadSel (b : Byte) : Sel := b.extractLsb' 4 2

/-- `opc <- b[3:0]`, by name. -/
def leadOpcode (b : Byte) : Opcode := Opcode.ofNumber (b.extractLsb' 0 4)

/-- The leading byte with fields `w`, `sel`, `opc` and bit 6 written as 0 (R71, R72). -/
def leadByte (w : Bool) (sel : Sel) (o : Opcode) : Byte :=
  BitVec.ofBool w ++ 0#1 ++ sel ++ o.number

/-- The marker byte of interrupt `vector`: `(vector << 4) | IVEC_OPCODE` (R81). -/
def markerByte (vector : Sel) : Byte :=
  (vector.setWidth 8 <<< 4) ||| Opcode.ivec.number.setWidth 8

/-! ### The width rule, R76 -/

/-- `OperandLen(opc, W)`: 0 for STOP, COMMIT, WAIT, IVEC, IRET; 1 for JMP; for all other opcodes, the reserved
ones among them (C4, D5), 1 or 2 by `W`. The decoder and the vector scan both call it. -/
def operandLen (o : Opcode) (w : Bool) : Nat :=
  match o with
  | .stop | .commit | .wait | .ivec | .iret => 0
  | .jmp => 1
  | .setreg | .setout | .modout | .drjnz | .jmpabs | .isetpc
  | .reservedC | .reservedD | .reservedE | .reservedF => if w then 2 else 1

/-- The operand length the leading byte alone gives (R77). -/
def leadOperandLen (b : Byte) : Nat := operandLen (leadOpcode b) (leadW b)

/-- The operand bytes the ENGINE consumes after leading byte `b`: the width rule for a valid opcode, none for a
reserved one, which stops before any operand is fetched (R80). -/
def consumedOperands (b : Byte) : Nat :=
  if (leadOpcode b).valid then leadOperandLen b else 0

/-! ### The decoder, R77 to R80 -/

/-- Why a list of bytes is no instruction. -/
inductive DecodeError where
  /-- There is no leading byte. -/
  | noBytes
  /-- The leading byte is there, but not all the operand bytes that the width rule gives it. -/
  | operandMissing (lead : Byte)
  deriving DecidableEq, Repr

/-- A 16-bit operand from its two cells, low byte at the lower address: `hi : lo` (R53, R78). -/
def wordOf (lo hi : Byte) : Word := hi ++ lo

/-- An instruction that carries a register selector, in the form that `W` chooses (R71, R78). -/
def withOperand (w : Bool) (byteForm : Byte → Instr) (wordForm : Word → Instr) (ops : List Byte) :
    Option Instr :=
  match w, ops with
  | false, [lo] => some (byteForm lo)
  | true, [lo, hi] => some (wordForm (wordOf lo hi))
  | _, _ => none

/-- The instruction with leading byte `b` and exactly the operand bytes `ops` (R71, R73, R78). -/
def assemble (b : Byte) (ops : List Byte) : Option Instr :=
  match leadOpcode b with
  | .stop => some .stop
  | .setreg => withOperand (leadW b) (.setregB (leadSel b)) (.setregW (leadSel b)) ops
  | .setout => withOperand (leadW b) (.setoutB (leadSel b)) (.setoutW (leadSel b)) ops
  | .modout => withOperand (leadW b) (.modoutB (leadSel b)) (.modoutW (leadSel b)) ops
  | .commit => some .commit
  | .wait => some .wait
  | .drjnz => withOperand (leadW b) (.drjnzB (leadSel b)) (.drjnzW (leadSel b)) ops
  | .jmp => match ops with
    | [lo] => some (.jmp lo)
    | _ => none
  | .jmpabs => withOperand (leadW b) .jmpabsB .jmpabsW ops
  | .ivec => some (.ivec (leadSel b))
  | .isetpc => withOperand (leadW b) .isetpcB .isetpcW ops
  | .iret => some .iret
  | .reservedC => some .reservedC
  | .reservedD => some .reservedD
  | .reservedE => some .reservedE
  | .reservedF => some .reservedF

/-- Decode the first instruction of a list of bytes and give the rest of the list. Total: it rejects, by name,
only a list that ends before the instruction does. Bit 6 is not looked at (R72), `W` and `sel` only where R73
uses them (R74, R75). -/
def decode (bytes : List Byte) : Except DecodeError (Instr × List Byte) :=
  match bytes with
  | [] => .error .noBytes
  | b :: rest =>
    if rest.length < consumedOperands b then .error (.operandMissing b)
    else
      match assemble b (rest.take (consumedOperands b)) with
      | some i => .ok (i, rest.drop (consumedOperands b))
      | none => .error (.operandMissing b)

/-! ### The encoder -/

/-- The operand bytes of an instruction, low byte first (R53, R71). -/
def operandBytes : Instr → List Byte
  | .setregB _ v | .setoutB _ v | .modoutB _ v | .drjnzB _ v | .jmp v | .jmpabsB v | .isetpcB v => [v]
  | .setregW _ v | .setoutW _ v | .modoutW _ v | .drjnzW _ v | .jmpabsW v | .isetpcW v =>
    [v.extractLsb' 0 8, v.extractLsb' 8 8]
  | .stop | .commit | .wait | .ivec _ | .iret
  | .reservedC | .reservedD | .reservedE | .reservedF => []

/-- The canonical bytes of an instruction: unused fields and bit 6 are written as 0 (R72, R74). -/
def encode (i : Instr) : List Byte :=
  leadByte i.width i.sel i.opcode :: operandBytes i

/-- Cells of the instruction as the engine executes it: the leading byte and the operand bytes (R70). -/
def Instr.cells (i : Instr) : Nat := 1 + (operandBytes i).length

/-! ### The host's reading of a table word -/

/-- The cells of an instruction whose bits are the low `nbits` bits of `w`: bit 0 is the least significant bit of
the first cell, each later cell counts on, and every bit above `nbits` is 0. Three cells are the longest
instruction (R70). -/
def tableBytes (nbits w : Nat) : List Byte :=
  let v := w % 2 ^ nbits
  [BitVec.ofNat 8 v, BitVec.ofNat 8 (v / 256), BitVec.ofNat 8 (v / 65536)]

/-- The instruction that the decoder reads from such a word. -/
def decodeTableWord (nbits w : Nat) : Option Instr :=
  match decode (tableBytes nbits w) with
  | .ok (i, _) => some i
  | .error _ => none

end Sys2Proof
end

