-- ==== Sys2Proof/Machine/State.lean ====
section
/-! DEFINITION. The state of the LSP VM core as plain data, the reasons a step can stop, and the state right after
`Reset` (10_state.md, 70_reset_and_hazards.md). -/

namespace Sys2Proof.Machine

/-- A register bank: four 16-bit words (R20, R21). Its byte view (R22) is computed, not stored. -/
structure Bank where
  w0 : Word
  w1 : Word
  w2 : Word
  w3 : Word
  deriving DecidableEq, Repr

/-- A bank whose four words are zero (R37). -/
def Bank.zero : Bank := ⟨0#16, 0#16, 0#16, 0#16⟩

/-- The program memory as (address, cell) pairs in one canonical form (`Memory.wf` in Sys2Proof/Machine/Ops.lean):
addresses strictly rising and below 512, no entry equal to what an unlisted address reads as (R50, R52). -/
abbrev Memory := List Host.Cell

/-- The interrupt state (R30, R162). -/
inductive IrqState where
  | none | pending | ongoing
  deriving DecidableEq, Repr

/-- Whether a `Step` invocation is in progress, and in which mode (R100, R112). `noProgram` is the time before the
first `Reset` (R38, R202). -/
inductive Phase where
  /-- Before the first `Reset`: every operation but `Reset` is refused. -/
  | noProgram
  /-- Between two invocations of `Step`. -/
  | idle
  /-- Inside `Step(0)`, past its steps 1 to 3: the burst goes on. -/
  | run
  /-- Inside `Step(1)`, past its steps 1 to 3: its one instruction is next. -/
  | single
  deriving DecidableEq, Repr

/-- What the control context has observed of the pause handshake (R11 "parked", R175 to R177, R220). DEDUCED
(log 6). -/
inductive ParkView where
  /-- It has not observed `pausedAck = 1` with `paused = 1` since the last `SetPause(0)` or `Reset`. -/
  | unparked
  /-- It has observed it and has made no single-step call since: it may write shared state (R211). -/
  | parked
  /-- It has observed it and has single-stepped since: it must observe `pausedAck = 1` again before it writes
  shared state (R220), but it may single-step and inspect. -/
  | stepped
  deriving DecidableEq, Repr

/-- One action of an agent outside the engine (R8, R177): one entry of the plain-data list `State.inputs`. -/
inductive Action where
  /-- The tick context invokes `Step(0)` (R100). -/
  | tick
  /-- The engine's turn: the invocation in progress goes on by one instruction, and an idle engine does nothing
  (R112). It lets the list say after which instruction the next action falls (R178 (b)). -/
  | engine
  /-- The control context invokes `Step(1)` (R108, R179). -/
  | singleStep
  /-- `RequestInterrupt(vector, arg)` (R161). -/
  | requestInterrupt (vector : BitVec 2) (arg : Word)
  /-- The flag write of `SetPause(value)` (R175). -/
  | setPause (value : Bool)
  /-- The control context reads `pausedAck` (R176). -/
  | readAck
  /-- `Reset(program)` with the content of the whole program memory (R33, R52, R200). -/
  | reset (image : Config.Image)
  /-- The owner of `brightness` changes it (R34, R181). -/
  | setBrightness (value : Word)
  /-- Parked read of `g`, `o`, `pc` and `irq_state` (R177). -/
  | inspect
  /-- Parked `writeWord` on the general bank (R23, R177). -/
  | writeGeneral (i : Sel) (value : Word)
  /-- Parked `writeByte` on the general bank (R22, R23, R177). -/
  | writeGeneralByte (j : BitVec 3) (value : Byte)
  /-- Parked `writeWord` on the output bank (R23, R177). -/
  | writeOutput (i : Sel) (value : Word)
  /-- Parked `writeByte` on the output bank (R22, R23, R177). -/
  | writeOutputByte (j : BitVec 3) (value : Byte)
  /-- Parked write of one cell of program memory (R60, R177). -/
  | writeCell (addr : CellAddr) (value : Byte)
  deriving DecidableEq, Repr

/-- One event that the block emits, or one value that it hands to the control context (R8, R10). -/
inductive Event where
  /-- `Commit(dutyR, dutyG, dutyB)`, taken by the PWM sink (R132, R180). -/
  | commit (dutyR dutyG dutyB : Byte)
  /-- The diagnostic snapshot of a single-step call (R110). -/
  | snapshot (irqState : IrqState) (g o : Bank)
  /-- The diagnostic notice "vector not found" (R165). -/
  | vectorNotFound
  /-- The value that a read of `pausedAck` returned (R176). -/
  | ackRead (value : Bool)
  /-- The values that a parked inspection returned (R177). -/
  | inspected (g o : Bank) (pc : Word) (irqState : IrqState)
  deriving DecidableEq, Repr

/-- The machine's state. The first thirteen fields are the spec's own; `phase` and `view` are where the procedure
`Step` and the pause handshake stand; `inputs` and `outputs` are the model's own record of the outside. -/
structure State where
  /-- General bank, A to D (R20). -/
  g : Bank
  /-- Output bank, R, G, B and the fourth (R21). -/
  o : Bank
  /-- Program counter (R26). -/
  pc : Word
  /-- (R28) -/
  paused : Bool
  /-- (R29) -/
  pausedAck : Bool
  /-- (R30) -/
  irqState : IrqState
  /-- (R31) -/
  irqVec : BitVec 2
  /-- (R31) -/
  irqArg : Word
  /-- SavedState: the general bank (R25). -/
  sg : Bank
  /-- SavedState: the output bank (R25). -/
  so : Bank
  /-- SavedState: the program counter (R25). -/
  spc : Word
  /-- The program memory that the last `Reset` recorded (R33, R51). -/
  mem : Memory
  /-- The external input as it stands now (R34). -/
  brightness : Word
  /-- Where the procedure `Step` stands (R100). -/
  phase : Phase
  /-- What the control context knows of the handshake (R177, R220). -/
  view : ParkView
  /-- MODEL'S OWN (log 5): the coming actions of the agents outside the engine, the next first. When it is empty,
  only the tick context and the engine act. -/
  inputs : List Action
  /-- MODEL'S OWN (log 8): the events emitted so far, the newest first. -/
  outputs : List Event
  deriving DecidableEq, Repr

/-- The model faults (R173): the two points where the source defines no behaviour. Each carries the stopped state,
which is never a final state. Safe: the hardware goes on where the model stops. -/
inductive Fault where
  /-- Raised by the engine's fetch of a leading or operand byte at `pc >= 512` (R58, R103). Safe. -/
  | fetchOutOfRange (stopped : State)
  /-- Raised by the meanings of the four reserved opcodes, after the leading byte was fetched (R80). Safe. -/
  | reservedOpcode (stopped : State)
  deriving DecidableEq, Repr

/-- The operations that the spec gives the model no move for (93_implementation_defined.md, treatment `refuse`).
Each is a duty of the host that the list `State.inputs` would break. Safe for claims about hosts that keep them. -/
inductive Refusal where
  /-- An instruction that has no meaning yet, by its mnemonic: raised by `exec` alone. Safe. -/
  | notModelled (mnemonic : String)
  /-- Any operation but `Reset` before the first `Reset` (R38, U16): raised by the action and by the idle move. Safe. -/
  | beforeReset
  /-- A `Step` invoked while another is in progress (R178 (c), U9): raised by the actions tick and singleStep. Safe. -/
  | overlappingStep
  /-- `Reset` while a `Step` is in progress (R178 (d), U9): raised by the action reset. Safe. -/
  | resetDuringStep
  /-- `Step(1)`, an inspection or a write of shared state while not parked (R177, R179, R211, U8, U9): raised by
  those actions. Safe. -/
  | notParked
  deriving DecidableEq, Repr

/-- The machine right after `Reset` (R37, R200), with a program whose cells are all unlisted (log 3, log 17). The
values that the spec does not give are `brightness` (log 7) and the model's own lists (log 5, log 8). -/
def State.reset : State where
  g := .zero
  o := .zero
  pc := 0#16
  paused := false
  pausedAck := false
  irqState := .none
  irqVec := 0#2
  irqArg := 0#16
  sg := .zero
  so := .zero
  spc := 0#16
  mem := []
  brightness := 0#16
  phase := .idle
  view := .unparked
  inputs := []
  outputs := []

end Sys2Proof.Machine
end

