-- ==== Sys2Proof/Machine/Flags.lean ====
section
/-! DEFINITION. The control flags. The block has no condition codes and no instruction records a property of its
result (R32); its flags are `paused` (R28) and `pausedAck` (R29). -/

namespace Sys2Proof.Machine

/-- `paused <- value`: the flag write of `SetPause` and the effect of STOP (R28, R130, R175). -/
def State.setPaused (value : Bool) (s : State) : State := { s with paused := value }

/-- `pausedAck <- value`: steps 1 and 2 of `Step` (R29, R101, R102). -/
def State.setAck (value : Bool) (s : State) : State := { s with pausedAck := value }

end Sys2Proof.Machine
end

