-- ==== Sys2Proof/Machine/Operands.lean ====
section
/-! DEFINITION. Every operand form of the spec: the extensions of the 8-bit operand (R79), slices (R10), and the
fixed-point duty product (R133). -/

namespace Sys2Proof.Machine

/-- `sext_16(v)`: bit 7 is copied into bits 15 to 8 (R10). -/
def sext16 (v : Byte) : Word := v.signExtend 16

/-- `zext_16(v)`: bits 15 to 8 are zero (R10). -/
def zext16 (v : Byte) : Word := v.setWidth 16

/-- `hi8(v)`, bits 15 to 8 (R10). -/
def hi8 (v : Word) : Byte := v.extractLsb' 8 8

/-- `lo8(v)`, bits 7 to 0 (R10). -/
def lo8 (v : Word) : Byte := v.extractLsb' 0 8

/-- The byte operand of SETOUT: the immediate in the high byte, the low byte 0 (R79, R121). -/
def outByteForm (v : Byte) : Word := v ++ 0x00#8

/-- What ISETPC loads for its byte operand: an absolute address, zero-extended (R79, R151). The spec's own decision
D7 (log 12). -/
def isetpcTargetB (v : Byte) : Word := zext16 v

/-- What ISETPC loads for its word operand: an absolute address (R79, R151). The spec's own decision D7 (log 12). -/
def isetpcTargetW (v : Word) : Word := v

/-- One duty value: the high bytes of the output register and of brightness, multiplied without loss in 16 bits,
shifted right by 8 and kept in 8 bits (R132, R133). -/
def duty (output brightness : Word) : Byte :=
  ((((hi8 output).setWidth 16 : Word) * ((hi8 brightness).setWidth 16 : Word)) >>> 8).setWidth 8

end Sys2Proof.Machine
end

