-- ==== Sys2Proof/Machine/Ops.lean ====
section
/-! DEFINITION. The named operations over memory, banks, registers and events; the vector scan; interrupt request,
entry and return; `Reset`. -/

namespace Sys2Proof.Machine

/-! ### Program memory, 20_memory.md -/

/-- The entries of `m` have addresses strictly rising from `lo` on and below 512, and none holds what an unlisted
cell reads as. -/
def Memory.wfFrom : Nat → Memory → Bool
  | _, [] => true
  | lo, (k, v) :: m =>
    decide (lo ≤ k) && decide (k < Config.progCells) && (v != Config.unlistedCell)
      && Memory.wfFrom (k + 1) m

/-- The canonical form: equal contents are equal lists. -/
def Memory.wf (m : Memory) : Bool := Memory.wfFrom 0 m

/-- `MemRead(addr, 1)` (R51). Its callers test `addr < 512` first (R58, R163). -/
def Memory.read : Memory → Nat → Byte
  | [], _ => Config.unlistedCell
  | (k, v) :: m, a => if a = k then v else Memory.read m a

/-- A list with an entry for the cell `a`, or none if `v` is what an unlisted cell reads as. -/
def Memory.consCell (a : Nat) (v : Byte) (m : Memory) : Memory :=
  if v = Config.unlistedCell then m else (a, v) :: m

/-- The loader's write of one cell (R56, R60), which keeps the canonical form. -/
def Memory.write : Memory → Nat → Byte → Memory
  | [], a, v => Memory.consCell a v []
  | (k, w) :: m, a, v =>
    if a < k then Memory.consCell a v ((k, w) :: m)
    else if a = k then Memory.consCell a v m
    else (k, w) :: Memory.write m a v

/-- The memory that holds `bytes` from address `a` on and is unlisted elsewhere. -/
def Memory.ofBytes : Nat → List Byte → Memory
  | _, [] => []
  | a, b :: bs => Memory.consCell a b (Memory.ofBytes (a + 1) bs)

/-- The memory whose cells are those of the image (R33, R52, R200). -/
def Memory.ofImage (image : Config.Image) : Memory := Memory.ofBytes 0 image.toList

/-! ### Register banks, R22 to R24 -/

/-- `readWord(i)` (R23). -/
def Bank.readWord (b : Bank) (i : Sel) : Word :=
  if i = 0 then b.w0 else if i = 1 then b.w1 else if i = 2 then b.w2 else b.w3

/-- `writeWord(i, v)` (R23). -/
def Bank.writeWord (b : Bank) (i : Sel) (v : Word) : Bank :=
  if i = 0 then { b with w0 := v } else if i = 1 then { b with w1 := v }
  else if i = 2 then { b with w2 := v } else { b with w3 := v }

/-- The word that byte `j` of a bank lies in: index `2*i` is the low byte of word `i`, `2*i+1` the high (R22). -/
def byteWord (j : BitVec 3) : Sel := j.extractLsb' 1 2

/-- Whether byte `j` of a bank is the high byte of its word (R22). -/
def byteIsHigh (j : BitVec 3) : Bool := j.getLsbD 0

/-- Read of byte `j` through the byte view (R22). -/
def Bank.readByte (b : Bank) (j : BitVec 3) : Byte :=
  if byteIsHigh j then hi8 (b.readWord (byteWord j)) else lo8 (b.readWord (byteWord j))

/-- `writeByte(j, v)`: the addressed 8 bits change, the other byte of the word does not (R22, R23). -/
def Bank.writeByte (b : Bank) (j : BitVec 3) (v : Byte) : Bank :=
  b.writeWord (byteWord j)
    (if byteIsHigh j then wordOf (lo8 (b.readWord (byteWord j))) v
     else wordOf v (hi8 (b.readWord (byteWord j))))

/-! ### Registers of the state -/

/-- `g[i] <- v` (R10). -/
def State.setGeneral (i : Sel) (v : Word) (s : State) : State := { s with g := s.g.writeWord i v }

/-- `o[i] <- v` (R10). -/
def State.setOutput (i : Sel) (v : Word) (s : State) : State := { s with o := s.o.writeWord i v }

/-- `gb[j] <- v`: a write through the byte view (R10, R22). -/
def State.setGeneralByte (j : BitVec 3) (v : Byte) (s : State) : State := { s with g := s.g.writeByte j v }

/-- `ob[j] <- v`: a write through the byte view (R10, R22). -/
def State.setOutputByte (j : BitVec 3) (v : Byte) (s : State) : State := { s with o := s.o.writeByte j v }

/-- The loader's write of the cell `addr` (R60). -/
def State.setCell (addr : CellAddr) (v : Byte) (s : State) : State :=
  { s with mem := Memory.write s.mem addr.toNat v }

/-- The brightness input changes (R34). -/
def State.setBrightness (v : Word) (s : State) : State := { s with brightness := v }

/-- The procedure `Step` goes on in phase `p` (R100). -/
def State.setPhase (p : Phase) (s : State) : State := { s with phase := p }

/-- What the control context knows of the handshake becomes `v` (R177, R220). -/
def State.setView (v : ParkView) (s : State) : State := { s with view := v }

/-- The actions that remain once one has been taken. -/
def State.setInputs (rest : List Action) (s : State) : State := { s with inputs := rest }

/-- `pc <- target` (R10, R27). -/
def State.setPc (target : Word) (s : State) : State := { s with pc := target }

/-- The advance of `pc` over `n` fetched cells: `n` times the 16-bit `pc + 1` of `Fetch8()` (R103). -/
def State.advance (n : Nat) (s : State) : State := { s with pc := s.pc + BitVec.ofNat 16 n }

/-- `spc <- target` (R25). -/
def State.setSpc (target : Word) (s : State) : State := { s with spc := target }

/-- `emit` (R10). -/
def State.emit (e : Event) (s : State) : State := { s with outputs := e :: s.outputs }

/-- `emit Diag(...)`, only when `DIAG_EN` is set (R110, R165, R185). -/
def State.emitDiag (e : Event) (s : State) : State :=
  { s with outputs := if Config.diagEn then e :: s.outputs else s.outputs }

/-- The return of the `Step` invocation in progress: the effect of a blocking opcode in run mode and of every
instruction in single-step mode (R107, R108). -/
def State.endInvocation (s : State) : State := s.setPhase .idle

/-! ### Fetch, R103 and R78 -/

/-- `Fetch8()`: nothing at `pc >= 512`, else the cell at `pc`, with `pc` advanced by 1 (R58, R103). -/
def State.fetch8 (s : State) : Option (Byte × State) :=
  if Config.progCells ≤ s.pc.toNat then none
  else some (Memory.read s.mem s.pc.toNat, s.advance 1)

/-- Up to `n` fetches, as far as the memory reaches: the bytes and the state after them. -/
def State.fetchBytes : Nat → State → List Byte × State
  | 0, s => ([], s)
  | n + 1, s =>
    match s.fetch8 with
    | none => ([], s)
    | some (b, s') => (b :: (State.fetchBytes n s').1, (State.fetchBytes n s').2)

/-- The bytes from `pc` on that an instruction can consist of: at most three, fewer at the end of memory. Reads
have no side effect (R55), so reading more than the instruction has is not observable. -/
def State.codeBytes (s : State) : List Byte := (State.fetchBytes 3 s).1

/-- What has been written when an instruction's operand fetch stops: DRJNZ decrements before it fetches its operand
(R58, R140), every other instruction writes nothing. -/
def State.beforeOperands (lead : Byte) (s : State) : State :=
  match leadOpcode lead with
  | .drjnz => s.setGeneral (leadSel lead) (s.g.readWord (leadSel lead) - 1)
  | .stop | .setreg | .setout | .modout | .commit | .wait | .jmp | .jmpabs | .ivec | .isetpc | .iret
  | .reservedC | .reservedD | .reservedE | .reservedF => s

/-- The state in which a fetch past the memory stops: after the bytes that could be fetched (R58). -/
def State.stoppedFetch (e : DecodeError) (s : State) : State :=
  match e with
  | .noBytes => s
  | .operandMissing lead => State.beforeOperands lead (State.fetchBytes 3 s).2

/-- Fetch and decode the instruction at `pc`, or the model fault of a fetch at `pc >= 512` (R58, R103, R105). -/
def State.fetchInstr (s : State) : Except Fault Instr :=
  match decode s.codeBytes with
  | .ok (i, _) => .ok i
  | .error e => .error (.fetchOutOfRange (s.stoppedFetch e))

/-! ### The interrupt controller, 60_exceptions.md -/

/-- `RequestInterrupt(vector, arg)`: dropped unless the state is NONE (R161). -/
def State.requestInterrupt (vector : BitVec 2) (arg : Word) (s : State) : State :=
  match s.irqState with
  | .none => { s with irqVec := vector, irqArg := arg, irqState := .pending }
  | .pending | .ongoing => s

/-- The vector scan from address `a` on, by the width rule, for the whole byte `marker` (R163). `fuel` bounds the
stops; 512 of them always reach the end of memory (log 24). -/
def vectorScan (m : Memory) (marker : Byte) : Nat → Nat → Option Nat
  | 0, _ => none
  | fuel + 1, a =>
    if Config.progCells ≤ a then none
    else if Memory.read m a = marker then some a
    else vectorScan m marker fuel (a + 1 + leadOperandLen (Memory.read m a))

/-- The address at which the scan from address 0 finds the marker of `vector` (R163). -/
def findMarker (m : Memory) (vector : BitVec 2) : Option Nat :=
  vectorScan m (markerByte vector) Config.progCells 0

/-- Entry with the marker found at address `a` (R164): both banks and `pc` are saved, then A takes the argument,
`pc` the marker's address and the state ONGOING. -/
def State.entryFound (a : Nat) (s : State) : State :=
  { s with
    sg := s.g
    so := s.o
    spc := s.pc
    g := s.g.writeWord 0 s.irqArg
    pc := BitVec.ofNat 16 a
    irqState := .ongoing }

/-- Entry with no marker found (R165). -/
def State.entryNotFound (s : State) : State :=
  { s.emitDiag .vectorNotFound with irqState := IrqState.none }

/-- `InterruptEntry()`, the one operation that enters an interrupt (R163 to R166). -/
def State.interruptEntry (s : State) : State :=
  match findMarker s.mem s.irqVec with
  | some a => s.entryFound a
  | none => s.entryNotFound

/-- The return from interrupt while ONGOING (R152, R167): both banks and `pc` from SavedState, the state NONE. -/
def State.interruptReturn (s : State) : State :=
  { s with g := s.sg, o := s.so, pc := s.spc, irqState := .none }

/-! ### Reset, R200 -/

/-- `Reset(program)`: every register, flag and the interrupt state are reinitialised and the program is recorded.
`brightness` is not touched, and the model's own lists go on. -/
def State.doReset (image : Config.Image) (s : State) : State :=
  { State.reset with
    mem := Memory.ofImage image
    brightness := s.brightness
    inputs := s.inputs
    outputs := s.outputs }

end Sys2Proof.Machine
end

