-- ==== Sys2Proof/Machine/Blocking.lean ====
section
/-! DEFINITION. The blocking instructions STOP, COMMIT and WAIT (42_blocking.md). Each meaning takes the state with
`pc` at the leading byte. -/

namespace Sys2Proof.Machine

/-- STOP: `paused <- 1`, and the invocation returns (R130). -/
def execStop (s : State) : Host.Outcome State Fault Refusal :=
  .next ((s.advance 1).setPaused true).endInvocation

/-- COMMIT: emits the three duties of R, G and B under the brightness of this moment, and the invocation returns
(R132). -/
def execCommit (s : State) : Host.Outcome State Fault Refusal :=
  .next ((s.advance 1).emit (.commit
    (duty (s.o.readWord 0) s.brightness)
    (duty (s.o.readWord 1) s.brightness)
    (duty (s.o.readWord 2) s.brightness))).endInvocation

/-- WAIT: the invocation returns (R131). -/
def execWait (s : State) : Host.Outcome State Fault Refusal :=
  .next (s.advance 1).endInvocation

end Sys2Proof.Machine
end

