-- ==== Sys2Proof/Machine/ControlTransfer.lean ====
section
/-! DEFINITION. The control transfers DRJNZ, JMP and JMPABS (43_control_transfer.md). Each meaning takes the state
with `pc` at the leading byte; an offset counts from the address after the last operand byte (R143 (e)). -/

namespace Sys2Proof.Machine

/-- `pc <- pc + offset`, modulo 65536 (R140, R141). -/
def State.jumpBy (offset : Word) (s : State) : State := s.setPc (s.pc + offset)

/-- The jump of DRJNZ, taken unless the register that was just written is zero (R140). -/
def State.jumpUnlessZero (sel : Sel) (offset : Word) (s : State) : State :=
  if s.g.readWord sel = 0 then s else s.jumpBy offset

/-- The decrement and the jump of both forms of DRJNZ, with `pc` already after the operand: the test is on the
decremented value (R140). -/
def State.decrementJump (sel : Sel) (offset : Word) (s : State) : State :=
  (s.setGeneral sel (s.g.readWord sel - 1)).jumpUnlessZero sel offset

/-- DRJNZ byte form, with a sign-extended offset (R140). -/
def execDrjnzB (sel : Sel) (offset : Byte) (s : State) : Host.Outcome State Fault Refusal :=
  .next ((s.advance 2).decrementJump sel (sext16 offset))

/-- DRJNZ word form (R140). -/
def execDrjnzW (sel : Sel) (offset : Word) (s : State) : Host.Outcome State Fault Refusal :=
  .next ((s.advance 3).decrementJump sel offset)

/-- JMP, with a sign-extended offset (R141). -/
def execJmp (offset : Byte) (s : State) : Host.Outcome State Fault Refusal :=
  .next ((s.advance 2).jumpBy (sext16 offset))

/-- JMPABS byte form: `pc <- zext_16(addr)` (R142). -/
def execJmpabsB (addr : Byte) (s : State) : Host.Outcome State Fault Refusal :=
  .next ((s.advance 2).setPc (zext16 addr))

/-- JMPABS word form: `pc <- addr` (R142). -/
def execJmpabsW (addr : Word) (s : State) : Host.Outcome State Fault Refusal :=
  .next ((s.advance 3).setPc addr)

end Sys2Proof.Machine
end

