-- ==== Sys2Proof/Machine/InterruptInstr.lean ====
section
/-! DEFINITION. The interrupt instructions IVEC, ISETPC and IRET (44_interrupt_instructions.md). Each meaning takes
the state with `pc` at the leading byte. -/

namespace Sys2Proof.Machine

/-- IVEC: a marker, executed as a no-op whatever its vector (R150). -/
def execIvec (_vector : Sel) (s : State) : Host.Outcome State Fault Refusal :=
  .next (s.advance 1)

/-- The load of `spc` by both forms of ISETPC, only while ONGOING (R151). -/
def State.redirectReturn (target : Word) (s : State) : State :=
  match s.irqState with
  | .ongoing => s.setSpc target
  | .none | .pending => s

/-- ISETPC byte form (R151). -/
def execIsetpcB (addr : Byte) (s : State) : Host.Outcome State Fault Refusal :=
  .next ((s.advance 2).redirectReturn (isetpcTargetB addr))

/-- ISETPC word form (R151). -/
def execIsetpcW (addr : Word) (s : State) : Host.Outcome State Fault Refusal :=
  .next ((s.advance 3).redirectReturn (isetpcTargetW addr))

/-- IRET: the return from interrupt while ONGOING, else a no-op (R152). -/
def execIret (s : State) : Host.Outcome State Fault Refusal :=
  match s.irqState with
  | .ongoing => .next (s.advance 1).interruptReturn
  | .none | .pending => .next (s.advance 1)

end Sys2Proof.Machine
end

