-- ==== Sys2Proof/Machine/RegisterOutput.lean ====
section
/-! DEFINITION. The register and output instructions SETREG, SETOUT and MODOUT (41_register_output.md). Each meaning
takes the state with `pc` at the leading byte. -/

namespace Sys2Proof.Machine

/-- SETREG byte form: `g[sel] <- zext_16(imm)` (R120). -/
def execSetregB (sel : Sel) (imm : Byte) (s : State) : Host.Outcome State Fault Refusal :=
  .next ((s.advance 2).setGeneral sel (zext16 imm))

/-- SETREG word form: `g[sel] <- imm` (R120). -/
def execSetregW (sel : Sel) (imm : Word) (s : State) : Host.Outcome State Fault Refusal :=
  .next ((s.advance 3).setGeneral sel imm)

/-- SETOUT byte form: the immediate goes to the high byte, the low byte is 0 (R121). -/
def execSetoutB (sel : Sel) (imm : Byte) (s : State) : Host.Outcome State Fault Refusal :=
  .next ((s.advance 2).setOutput sel (outByteForm imm))

/-- SETOUT word form: `o[sel] <- imm` (R121). -/
def execSetoutW (sel : Sel) (imm : Word) (s : State) : Host.Outcome State Fault Refusal :=
  .next ((s.advance 3).setOutput sel imm)

/-- `o[sel] <- o[sel] + delta`, modulo 65536: what both forms of MODOUT do (R122, R123). -/
def State.addOutput (sel : Sel) (delta : Word) (s : State) : State :=
  s.setOutput sel (s.o.readWord sel + delta)

/-- MODOUT byte form: adds the sign-extended immediate (R122). -/
def execModoutB (sel : Sel) (imm : Byte) (s : State) : Host.Outcome State Fault Refusal :=
  .next ((s.advance 2).addOutput sel (sext16 imm))

/-- MODOUT word form: adds the immediate (R122). -/
def execModoutW (sel : Sel) (imm : Word) (s : State) : Host.Outcome State Fault Refusal :=
  .next ((s.advance 3).addOutput sel imm)

end Sys2Proof.Machine
end

