-- ==== Sys2Proof/Machine/Reserved.lean ====
section
/-! DEFINITION. The four reserved opcodes: the source gives them no effect, and the model stops with the fault
ReservedOpcode after the leading byte was fetched (R80, decision D5). -/

namespace Sys2Proof.Machine

/-- The model fault of a reserved opcode: `pc` has advanced by 1, nothing else is written (R80). -/
def State.reservedFault (s : State) : Host.Outcome State Fault Refusal :=
  .fault (.reservedOpcode (s.advance 1))

/-- Opcode 12 (R80). -/
def execReservedC (s : State) : Host.Outcome State Fault Refusal := s.reservedFault

/-- Opcode 13 (R80). -/
def execReservedD (s : State) : Host.Outcome State Fault Refusal := s.reservedFault

/-- Opcode 14 (R80). -/
def execReservedE (s : State) : Host.Outcome State Fault Refusal := s.reservedFault

/-- Opcode 15 (R80). -/
def execReservedF (s : State) : Host.Outcome State Fault Refusal := s.reservedFault

end Sys2Proof.Machine
end

