-- ==== Sys2Proof/Machine/Dispatch.lean ====
section
/-! DEFINITION. The dispatch of R106: one arm per constructor of Instr. -/

namespace Sys2Proof.Machine

def exec (i : Instr) (s : State) : Host.Outcome State Fault Refusal :=
  match i with
  | .stop => Sys2Proof.Machine.execStop s
  | .setregB sel imm => Sys2Proof.Machine.execSetregB sel imm s
  | .setregW sel imm => Sys2Proof.Machine.execSetregW sel imm s
  | .setoutB sel imm => Sys2Proof.Machine.execSetoutB sel imm s
  | .setoutW sel imm => Sys2Proof.Machine.execSetoutW sel imm s
  | .modoutB sel imm => Sys2Proof.Machine.execModoutB sel imm s
  | .modoutW sel imm => Sys2Proof.Machine.execModoutW sel imm s
  | .commit => Sys2Proof.Machine.execCommit s
  | .wait => Sys2Proof.Machine.execWait s
  | .drjnzB sel offset => Sys2Proof.Machine.execDrjnzB sel offset s
  | .drjnzW sel offset => Sys2Proof.Machine.execDrjnzW sel offset s
  | .jmp offset => Sys2Proof.Machine.execJmp offset s
  | .jmpabsB addr => Sys2Proof.Machine.execJmpabsB addr s
  | .jmpabsW addr => Sys2Proof.Machine.execJmpabsW addr s
  | .ivec vector => Sys2Proof.Machine.execIvec vector s
  | .isetpcB addr => Sys2Proof.Machine.execIsetpcB addr s
  | .isetpcW addr => Sys2Proof.Machine.execIsetpcW addr s
  | .iret => Sys2Proof.Machine.execIret s
  | .reservedC => Sys2Proof.Machine.execReservedC s
  | .reservedD => Sys2Proof.Machine.execReservedD s
  | .reservedE => Sys2Proof.Machine.execReservedE s
  | .reservedF => Sys2Proof.Machine.execReservedF s

end Sys2Proof.Machine
end

