-- ==== Sys2Proof/Machine/Engine.lean ====
section
/-! DEFINITION. The engine (40_engine.md) and the actions of the agents outside it (00_scope.md R8): what one step
of the model does. -/

namespace Sys2Proof.Machine

/-! ### The procedure `Step`, R100 -/

/-- Steps 2 and 3 of `Step`: `pausedAck` is cleared, and a pending interrupt is entered (R102, R104). -/
def State.enterPending (s : State) : State :=
  match s.irqState with
  | .pending => (s.setAck false).interruptEntry
  | .none | .ongoing => s.setAck false

/-- `Step(0)` up to its first instruction (R101, R102, R104): a paused engine acknowledges and returns, with
nothing else written. -/
def State.beginRun (s : State) : State :=
  if s.paused then s.setAck true else s.enterPending.setPhase .run

/-- `Step(1)` up to its one instruction: the pause check is bypassed (R101, R102, R104). -/
def State.beginSingle (s : State) : State := s.enterPending.setPhase .single

/-- Fetch, decode and execute one instruction (R105, R106). A blocking opcode ends the invocation as part of its
own effect (R107), so a burst goes on exactly as long as `phase` stays `run` (R109). -/
def State.runInstr (s : State) : Host.Outcome State Fault Refusal :=
  match s.fetchInstr with
  | .ok i => exec i s
  | .error f => .fault f

/-- The end of a single-step call: the snapshot when diagnostics are enabled, then the return (R108, R110). -/
def State.endSingle (s : State) : State :=
  (s.emitDiag (.snapshot s.irqState s.g s.o)).endInvocation

/-- The one instruction of a single-step call and its return (R108). -/
def State.runSingle (s : State) : Host.Outcome State Fault Refusal :=
  match s.runInstr with
  | .next s' => .next s'.endSingle
  | .fault f => .fault f
  | .refused r => .refused r

/-- The engine's turn: the invocation in progress goes on by one instruction, and between invocations the engine
does nothing (R111, R112). -/
def State.engineTurn (s : State) : Host.Outcome State Fault Refusal :=
  match s.phase with
  | .noProgram => .refused .beforeReset
  | .idle => .next s
  | .run => s.runInstr
  | .single => s.runSingle

/-! ### The actions of the other agents -/

/-- An operation that is defined once a program has been recorded (R38). -/
def State.afterReset (s s' : State) : Host.Outcome State Fault Refusal :=
  match s.phase with
  | .noProgram => .refused .beforeReset
  | .idle | .run | .single => .next s'

/-- `Step(0)`, invoked by the tick context: never while another `Step` is in progress (R178 (c)). -/
def State.tick (s : State) : Host.Outcome State Fault Refusal :=
  match s.phase with
  | .noProgram => .refused .beforeReset
  | .idle => .next s.beginRun
  | .run | .single => .refused .overlappingStep

/-- `Step(1)`, invoked by the control context: only while parked (R179). -/
def State.singleStep (s : State) : Host.Outcome State Fault Refusal :=
  match s.phase, s.view with
  | .noProgram, _ => .refused .beforeReset
  | .run, _ | .single, _ => .refused .overlappingStep
  | .idle, .unparked => .refused .notParked
  | .idle, .parked | .idle, .stepped => .next (s.beginSingle.setView .stepped)

/-- The flag write of `SetPause(value)`; `SetPause(0)` ends the parked time (R175, R177). -/
def State.setPause (value : Bool) (s : State) : State :=
  (s.setPaused value).setView (if value then s.view else .unparked)

/-- A read of `pausedAck` by the control context: it is parked once it reads 1 while `paused = 1` (R11, R176). -/
def State.readAck (s : State) : State :=
  (s.emit (.ackRead s.pausedAck)).setView (if s.paused && s.pausedAck then .parked else s.view)

/-- `Reset(program)`: never while a `Step` is in progress (R178 (d)). DESIGN CHOICE (log 29): on an idle engine it may
record any image, parked or not; R200 and R178 allow that, while R33 and R177 keep another image for the parked
time. -/
def State.resetAction (image : Config.Image) (s : State) : Host.Outcome State Fault Refusal :=
  match s.phase with
  | .run | .single => .refused .resetDuringStep
  | .noProgram | .idle => .next (s.doReset image)

/-- A parked inspection: it may follow single-step calls (R177, R184). -/
def State.inspect (s : State) : Host.Outcome State Fault Refusal :=
  match s.phase, s.view with
  | .noProgram, _ => .refused .beforeReset
  | .idle, .parked | .idle, .stepped => .next (s.emit (.inspected s.g s.o s.pc s.irqState))
  | .idle, .unparked | .run, _ | .single, _ => .refused .notParked

/-- A parked write of shared state, giving `s'`: the control context must have observed `pausedAck = 1` since its
last single-step call (R177, R211, R220). -/
def State.parkedWrite (s s' : State) : Host.Outcome State Fault Refusal :=
  match s.phase, s.view with
  | .noProgram, _ => .refused .beforeReset
  | .idle, .parked => .next s'
  | .idle, .stepped | .idle, .unparked | .run, _ | .single, _ => .refused .notParked

/-- One action of an agent outside the engine. -/
def State.perform (a : Action) (s : State) : Host.Outcome State Fault Refusal :=
  match a with
  | .tick => s.tick
  | .engine => s.engineTurn
  | .singleStep => s.singleStep
  | .requestInterrupt vector arg => s.afterReset (s.requestInterrupt vector arg)
  | .setPause value => s.afterReset (s.setPause value)
  | .readAck => s.afterReset s.readAck
  | .reset image => s.resetAction image
  | .setBrightness value => .next (s.setBrightness value)
  | .inspect => s.inspect
  | .writeGeneral i value => s.parkedWrite (s.setGeneral i value)
  | .writeGeneralByte j value => s.parkedWrite (s.setGeneralByte j value)
  | .writeOutput i value => s.parkedWrite (s.setOutput i value)
  | .writeOutputByte j value => s.parkedWrite (s.setOutputByte j value)
  | .writeCell addr value => s.parkedWrite (s.setCell addr value)

/-- The move when no action is listed: the tick source invokes `Step(0)` on an idle engine, and an invocation in
progress goes on (R8, R112). -/
def State.defaultMove (s : State) : Host.Outcome State Fault Refusal :=
  match s.phase with
  | .noProgram => .refused .beforeReset
  | .idle => s.tick
  | .run | .single => s.engineTurn

/-- One move of the machine: the next listed action, or the default move. While a single-step call is in progress
the control context is inside it, so the instruction comes first (R178 (c), R220). -/
def State.move (s : State) : Host.Outcome State Fault Refusal :=
  match s.phase, s.inputs with
  | .single, _ => s.runSingle
  | .noProgram, [] | .idle, [] | .run, [] => s.defaultMove
  | .noProgram, a :: rest | .idle, a :: rest | .run, a :: rest =>
    State.perform a (s.setInputs rest)

/-! ### Placing an instruction -/

/-- The address at which an instruction can be placed so that it is fetched next: `pc`, or 0 where fewer than the
longest instruction's three cells are left above `pc` (log 17). -/
def State.placeAddr (s : State) : Nat :=
  if s.pc.toNat + 3 ≤ Config.progCells then s.pc.toNat else 0

/-- Memory with `bytes` written from address `a` on. -/
def Memory.writeBytes : Memory → Nat → List Byte → Memory
  | m, _, [] => m
  | m, a, b :: bs => Memory.writeBytes (Memory.write m a b) (a + 1) bs

end Sys2Proof.Machine
end

