-- ==== Sys2Proof/Machine/Step.lean ====
section
/-! DEFINITION. One step of the machine, and the placing of a table word where the step fetches. -/

namespace Sys2Proof.Machine

/-- One step: one instruction of the engine, or one action of another agent. -/
def step (s : State) : Host.Outcome State Fault Refusal := s.move

/-- `s` with the instruction whose bits are `w` at the fetch address of a run-mode burst in progress with no listed
action: what the very next step runs (log 17). -/
def State.withFetchWord (s : State) (nbits w : Nat) : State :=
  { s with
    pc := BitVec.ofNat 16 s.placeAddr
    mem := Memory.writeBytes s.mem s.placeAddr (tableBytes nbits w)
    phase := .run
    inputs := [] }

end Sys2Proof.Machine
end

