-- ==== Sys2Proof/Safety.lean ====
section
/-! DEFINITION. The terms that claims about the machine use: the invariant of the state, what a step leaves
unchanged, the path of the vector scan, and where an operand fetch stops. -/

namespace Sys2Proof.Machine

/-- What every step keeps: the memory's canonical form, and the pause handshake's promises (R28, R29, R176, R177,
R220). -/
structure State.Inv (s : State) : Prop where
  memWf : Memory.wf s.mem = true
  /-- A control context that may write shared state sees the engine paused and acknowledged. -/
  parkedAcked : s.view = .parked → s.paused = true ∧ s.pausedAck = true
  /-- A control context that single-stepped is still parked. -/
  steppedPaused : s.view = .stepped → s.paused = true
  /-- Every invocation past its step 2 has cleared `pausedAck`. -/
  busyUnacked : s.phase = .run ∨ s.phase = .single → s.pausedAck = false
  /-- A single-step call is in progress only while parked. -/
  singleParked : s.phase = .single → s.view = .stepped
  /-- While parked no burst is in progress. -/
  runUnparked : s.phase = .run → s.view = .unparked

/-! ### What is left unchanged -/

/-- Every general register. -/
def KeepsGeneral (s t : State) : Prop := ∀ i, t.g.readWord i = s.g.readWord i

/-- Every output register. -/
def KeepsOutput (s t : State) : Prop := ∀ i, t.o.readWord i = s.o.readWord i

/-- `paused`, `pausedAck`, and the interrupt state with its vector and argument. -/
def KeepsControl (s t : State) : Prop :=
  t.paused = s.paused ∧ t.pausedAck = s.pausedAck ∧ t.irqState = s.irqState ∧ t.irqVec = s.irqVec
    ∧ t.irqArg = s.irqArg

/-- The two saved banks and the saved program counter. -/
def KeepsSaved (s t : State) : Prop :=
  (∀ i, t.sg.readWord i = s.sg.readWord i) ∧ (∀ i, t.so.readWord i = s.so.readWord i) ∧ t.spc = s.spc

/-- Every cell of program memory. -/
def KeepsMemory (s t : State) : Prop := ∀ a, Memory.read t.mem a = Memory.read s.mem a

/-- The brightness input, the control context's knowledge, the coming actions, and the events emitted. -/
def KeepsOutside (s t : State) : Prop :=
  t.brightness = s.brightness ∧ t.view = s.view ∧ t.inputs = s.inputs ∧ t.outputs = s.outputs

/-- Everything but the two banks and `pc`; the invocation in progress goes on. -/
def KeepsAllButBanks (s t : State) : Prop :=
  KeepsControl s t ∧ KeepsSaved s t ∧ KeepsMemory s t ∧ KeepsOutside s t ∧ t.phase = s.phase

/-! ### Invocations -/

/-- A run-mode invocation comes next: the default move when nothing is listed, or the listed action `tick`. `rest` is
what stays listed. -/
def RunInvocationNext (s : State) (rest : List Action) : Prop :=
  s.phase = .idle ∧ ((s.inputs = [] ∧ rest = []) ∨ s.inputs = .tick :: rest)

/-- A single-step call comes next, made by a parked control context (R179). -/
def SingleStepNext (s : State) (rest : List Action) : Prop :=
  s.phase = .idle ∧ s.view ≠ .unparked ∧ s.inputs = .singleStep :: rest

/-- What `Reset(program)` leaves (R200): the fields that the rule lists, all the recorded cells, no event, `brightness`
untouched, and no invocation in progress, so that the next run-mode `Step` starts a burst at cell 0. -/
structure ResetLeaves (image : Config.Image) (rest : List Action) (s t : State) : Prop where
  banks : ∀ i, t.g.readWord i = 0 ∧ t.o.readWord i = 0
  saved : (∀ i, t.sg.readWord i = 0 ∧ t.so.readWord i = 0) ∧ t.spc = 0
  pc : t.pc = 0
  flags : t.paused = false ∧ t.pausedAck = false
  irq : t.irqState = .none ∧ t.irqVec = 0 ∧ t.irqArg = 0
  cells : ∀ (a : Nat) (h : a < Config.progCells), Memory.read t.mem a = image[a]
  outside : t.brightness = s.brightness ∧ t.outputs = s.outputs ∧ t.inputs = rest
  notBusy : t.phase = .idle
  starts : ∀ more, RunInvocationNext t more → step t = .next { t with phase := .run, inputs := more }

/-! ### Fetch -/

/-- An instruction with opcode `op` that starts inside the memory and whose operand does not end inside it stops at
the operand byte that would be fetched at 512, in the state `stopped` of its leading byte (R58). -/
def OperandFetchStops (op : Opcode) (stopped : Byte → State → State) : Prop :=
  ∀ s : State, s.phase = .run → s.inputs = [] → s.pc.toNat < 512 →
    leadOpcode (Memory.read s.mem s.pc.toNat) = op →
    512 < s.pc.toNat + 1 + leadOperandLen (Memory.read s.mem s.pc.toNat) →
    step s = .fault (.fetchOutOfRange (stopped (Memory.read s.mem s.pc.toNat) s))

/-- Stopped with no register written: `pc` has advanced to 512. -/
def stoppedAtEnd (_lead : Byte) (s : State) : State := { s with pc := 512#16 }

/-! ### The vector scan -/

/-- The addresses that the vector scan visits: 0, and after each visited address below 512 the address that the
width rule gives next (R163). -/
inductive OnScanPath (m : Memory) : Nat → Prop where
  | start : OnScanPath m 0
  | next (a : Nat) : OnScanPath m a → a < 512 →
      OnScanPath m (a + 1 + leadOperandLen (Memory.read m a))

end Sys2Proof.Machine
end

