-- ==== Sys2Proof/Certificates/Slice0/Obligations.lean ====
section
/-! DEFINITION. The statements for the provers, each from a numbered rule of the spec (or from the sections that its
docstring names). -/

open Sys2Proof Sys2Proof.Machine

/-! ### Reset -/

/-- The fields that R37 gives a reset value: the banks, `pc`, the flags and the interrupt state are zero or NONE, and
by the spec's decision D9 so are SavedState, `irq_vec` and `irq_arg`. -/
def Obligations.ResetStateIsZero : Prop :=
  (∀ i, State.reset.g.readWord i = 0 ∧ State.reset.o.readWord i = 0 ∧ State.reset.sg.readWord i = 0 ∧
    State.reset.so.readWord i = 0) ∧
  State.reset.pc = 0 ∧ State.reset.spc = 0 ∧ State.reset.paused = false ∧ State.reset.pausedAck = false ∧
  State.reset.irqState = .none ∧ State.reset.irqVec = 0 ∧ State.reset.irqArg = 0

/-- R200. `Reset(program)` before the first `Reset` or while parked: what it leaves. While a `Step` is in progress there
is no such move. `ResetOfUnparkedEngine` is the case of an idle engine that is not parked. -/
def Obligations.ResetReinitialises : Prop :=
  (∀ (s : State) (image : Config.Image) (rest : List Action),
    s.phase = .noProgram ∨ (s.phase = .idle ∧ s.view ≠ .unparked) → s.inputs = .reset image :: rest →
    ∃ t, step s = .next t ∧ ResetLeaves image rest s t) ∧
  (∀ (s : State) (image : Config.Image) (rest : List Action), s.phase = .run →
    s.inputs = .reset image :: rest → step s = .refused .resetDuringStep)

/-! ### Encoding -/

/-- Words written out from the encodings of 41 to 44 decode to the instructions they stand for. -/
def Obligations.SpecWordsDecode : Prop :=
  decode [0x91, 0x34, 0x12] = .ok (.setregW 1 0x1234, []) ∧
  decode [0x32, 0x10] = .ok (.setoutB 3 0x10, []) ∧
  decode [0x04] = .ok (.commit, []) ∧
  decode [0x16, 0xFC] = .ok (.drjnzB 1 0xFC, []) ∧
  decode [0x87, 0x03, 0x05] = .ok (.jmp 0x03, [0x05]) ∧
  decode [0x8A, 0x03, 0x00] = .ok (.isetpcW 0x0003, []) ∧
  decode [0x0C, 0x00] = .ok (.reservedC, [0x00])

/-- Decoding the encoding of any instruction, with any bytes after it, gives the instruction back and leaves those
bytes. -/
def Obligations.DecodeEncodeRoundTrip : Prop :=
  ∀ (i : Instr) (rest : List Byte), decode (encode i ++ rest) = .ok (i, rest)

/-- R72. Bit 6 of the leading byte does not matter to the decoder. The scan compares the whole byte: it goes on past a
marker with bit 6 set, whatever vector it looks for, and bit 6 is 0 in the cell it finds. The encoder writes bit 6
as 0. -/
def Obligations.BitSixIgnoredByDecodeNotByScan : Prop :=
  (∀ (b : Byte) (tail rest : List Byte) (i : Instr),
    decode (b :: tail) = .ok (i, rest) ↔ decode ((b ^^^ 0x40#8) :: tail) = .ok (i, rest)) ∧
  (∀ (m : Memory) (v w : Sel) (fuel a : Nat), a < 512 → Memory.read m a = (markerByte v ^^^ 0x40#8) →
    vectorScan m (markerByte w) (fuel + 1) a = vectorScan m (markerByte w) fuel (a + 1)) ∧
  (∀ (m : Memory) (v : Sel) (a : Nat), findMarker m v = some a → (Memory.read m a).getLsbD 6 = false) ∧
  (∀ i : Instr, ∃ lead ops, encode i = lead :: ops ∧ lead.getLsbD 6 = false)

/-- R74 and R75: the selector and the width flag do not matter where the opcode table says ignored. -/
def Obligations.UnusedFieldsIgnored : Prop :=
  ∀ (b c : Byte) (tail rest : List Byte) (i : Instr), leadOpcode b = leadOpcode c →
    ((leadOpcode b = .stop ∨ leadOpcode b = .commit ∨ leadOpcode b = .wait ∨ leadOpcode b = .jmp ∨
        leadOpcode b = .iret) ∨
      ((leadOpcode b = .jmpabs ∨ leadOpcode b = .isetpc) ∧ leadW b = leadW c) ∨
      (leadOpcode b = .ivec ∧ leadSel b = leadSel c)) →
    (decode (b :: tail) = .ok (i, rest) ↔ decode (c :: tail) = .ok (i, rest))

/-- R76. The Instruction Width Rule on the 4-bit field, and that the decoder (for the valid opcodes) and the vector
scan (for all) both go on by it. -/
def Obligations.WidthRuleSharedByDecoderAndScan : Prop :=
  (∀ (n : BitVec 4) (w : Bool), operandLen (Opcode.ofNumber n) w =
    if n = 0 ∨ n = 4 ∨ n = 5 ∨ n = 9 ∨ n = 11 then 0 else if n = 7 then 1 else if w then 2 else 1) ∧
  (∀ (b : Byte) (tail rest : List Byte) (i : Instr), decode (b :: tail) = .ok (i, rest) →
    i.wellFormed = true → tail.length = operandLen (leadOpcode b) (leadW b) + rest.length) ∧
  (∀ (m : Memory) (marker : Byte) (fuel a : Nat), a < 512 → Memory.read m a ≠ marker →
    vectorScan m marker (fuel + 1) a =
      vectorScan m marker fuel
        (a + 1 + operandLen (leadOpcode (Memory.read m a)) (leadW (Memory.read m a))))

/-- R80 and R82: every leading byte decodes with two bytes after it, to a valid instruction for 192 of the 256 bytes
and to a reserved one for those whose low four bits are 12 to 15. -/
def Obligations.EveryLeadingByteCovered : Prop :=
  (∀ b x y : Byte, ∃ i rest, decode [b, x, y] = .ok (i, rest) ∧
    (i.wellFormed = false ↔ 12 ≤ (b.extractLsb' 0 4).toNat)) ∧
  ((List.range 256).filter fun n => (leadOpcode (BitVec.ofNat 8 n)).valid).length = 192

/-- R81. The four markers. A leading byte with the IVEC opcode is a marker exactly when W and bit 6 are 0, and always
an IVEC for the decoder; with W or bit 6 set the scan goes on past it, whatever vector it looks for. -/
def Obligations.MarkerBytesAreWholeBytes : Prop :=
  markerByte 0 = 0x09 ∧ markerByte 1 = 0x19 ∧ markerByte 2 = 0x29 ∧ markerByte 3 = 0x39 ∧
  ∀ b : Byte, leadOpcode b = .ivec →
    ((∃ v, b = markerByte v) ↔ leadW b = false ∧ b.getLsbD 6 = false) ∧
    (∀ v, b = markerByte v → leadSel b = v) ∧
    (∀ tail, decode (b :: tail) = .ok (.ivec (leadSel b), tail)) ∧
    ∀ (m : Memory) (w : Sel) (fuel a : Nat), a < 512 → Memory.read m a = b →
      leadW b = true ∨ b.getLsbD 6 = true →
      vectorScan m (markerByte w) (fuel + 1) a = vectorScan m (markerByte w) fuel (a + 1)

/-! ### Register banks -/

/-- R22. The byte view and the word view are one storage, little-endian pairs, and a byte write changes only the
addressed 8 bits. -/
def Obligations.ByteViewSharesStorage : Prop :=
  (∀ (b : Bank) (i : Sel), b.readByte (i ++ 0#1) = (b.readWord i).extractLsb' 0 8 ∧
    b.readByte (i ++ 1#1) = (b.readWord i).extractLsb' 8 8) ∧
  (∀ (b : Bank) (j k : BitVec 3) (v : Byte),
    (b.writeByte j v).readByte k = if k = j then v else b.readByte k) ∧
  (∀ (b : Bank) (i k : Sel) (v : Word), (b.writeWord i v).readWord k = if k = i then v else b.readWord k)

/-! ### Register and output instructions -/

/-- R120. SETREG: the destination takes the zero-extended or whole immediate, `pc` advances by 2 or 3, nothing else
is written, and an operand byte at 512 stops the fetch with no register written. -/
def Obligations.SetregWritesImmediate : Prop :=
  (∀ (s : State) (sel : Sel) (imm : Byte), ∃ t, exec (.setregB sel imm) s = .next t ∧
    (t.g.readWord sel).toNat = imm.toNat ∧ (∀ j, j ≠ sel → t.g.readWord j = s.g.readWord j) ∧
    t.pc = s.pc + 2 ∧ KeepsOutput s t ∧ KeepsAllButBanks s t) ∧
  (∀ (s : State) (sel : Sel) (imm : Word), ∃ t, exec (.setregW sel imm) s = .next t ∧
    t.g.readWord sel = imm ∧ (∀ j, j ≠ sel → t.g.readWord j = s.g.readWord j) ∧
    t.pc = s.pc + 3 ∧ KeepsOutput s t ∧ KeepsAllButBanks s t) ∧
  OperandFetchStops .setreg stoppedAtEnd

/-- R121. SETOUT: the byte form gives immediate times 256 (high byte set, low byte 0), the word form the immediate. -/
def Obligations.SetoutWritesImmediate : Prop :=
  (∀ (s : State) (sel : Sel) (imm : Byte), ∃ t, exec (.setoutB sel imm) s = .next t ∧
    (t.o.readWord sel).toNat = imm.toNat * 256 ∧ (∀ j, j ≠ sel → t.o.readWord j = s.o.readWord j) ∧
    t.pc = s.pc + 2 ∧ KeepsGeneral s t ∧ KeepsAllButBanks s t) ∧
  (∀ (s : State) (sel : Sel) (imm : Word), ∃ t, exec (.setoutW sel imm) s = .next t ∧
    t.o.readWord sel = imm ∧ (∀ j, j ≠ sel → t.o.readWord j = s.o.readWord j) ∧
    t.pc = s.pc + 3 ∧ KeepsGeneral s t ∧ KeepsAllButBanks s t) ∧
  OperandFetchStops .setout stoppedAtEnd

/-- R122. MODOUT: the old value plus the signed immediate, modulo 65536; no carry or overflow is recorded. -/
def Obligations.ModoutAddsSignedImmediate : Prop :=
  (∀ (s : State) (sel : Sel) (imm : Byte), ∃ t, exec (.modoutB sel imm) s = .next t ∧
    ((t.o.readWord sel).toNat : Int) = ((s.o.readWord sel).toNat + imm.toInt) % 65536 ∧
    (∀ j, j ≠ sel → t.o.readWord j = s.o.readWord j) ∧
    t.pc = s.pc + 2 ∧ KeepsGeneral s t ∧ KeepsAllButBanks s t) ∧
  (∀ (s : State) (sel : Sel) (imm : Word), ∃ t, exec (.modoutW sel imm) s = .next t ∧
    ((t.o.readWord sel).toNat : Int) = ((s.o.readWord sel).toNat + imm.toInt) % 65536 ∧
    (t.o.readWord sel).toNat = ((s.o.readWord sel).toNat + imm.toNat) % 65536 ∧
    (∀ j, j ≠ sel → t.o.readWord j = s.o.readWord j) ∧
    t.pc = s.pc + 3 ∧ KeepsGeneral s t ∧ KeepsAllButBanks s t) ∧
  OperandFetchStops .modout stoppedAtEnd

/-! ### Blocking instructions -/

/-- R130. STOP sets `paused`, leaves `pausedAck`, advances `pc` by 1 and returns; then a run-mode invocation with no
other action before it executes nothing and sets `pausedAck`. -/
def Obligations.StopSetsPausedAndReturns : Prop :=
  ∀ s : State, ∃ t, exec .stop s = .next t ∧ t.paused = true ∧ t.pausedAck = s.pausedAck ∧ t.pc = s.pc + 1 ∧
    t.phase = .idle ∧ KeepsGeneral s t ∧ KeepsOutput s t ∧ t.irqState = s.irqState ∧ t.irqVec = s.irqVec ∧
    t.irqArg = s.irqArg ∧ KeepsSaved s t ∧ KeepsMemory s t ∧ KeepsOutside s t ∧
    (∀ rest, RunInvocationNext t rest → step t = .next { t with pausedAck := true, inputs := rest })

/-- R131. WAIT advances `pc` by 1 and returns; nothing else. -/
def Obligations.WaitOnlyReturns : Prop :=
  ∀ s : State, ∃ t, exec .wait s = .next t ∧ t.pc = s.pc + 1 ∧ t.phase = .idle ∧ KeepsGeneral s t ∧
    KeepsOutput s t ∧ KeepsControl s t ∧ KeepsSaved s t ∧ KeepsMemory s t ∧ KeepsOutside s t

/-- R132. COMMIT emits one event, the duties of R, G and B under the high byte of brightness, advances `pc` by 1 and
returns; no register changes. -/
def Obligations.CommitEmitsDuties : Prop :=
  ∀ s : State, ∃ (t : State) (r g b : Byte), exec .commit s = .next t ∧
    t.outputs = .commit r g b :: s.outputs ∧
    r.toNat = (s.o.w0.toNat / 256) * (s.brightness.toNat / 256) / 256 ∧
    g.toNat = (s.o.w1.toNat / 256) * (s.brightness.toNat / 256) / 256 ∧
    b.toNat = (s.o.w2.toNat / 256) * (s.brightness.toNat / 256) / 256 ∧
    t.pc = s.pc + 1 ∧ t.phase = .idle ∧ KeepsGeneral s t ∧ KeepsOutput s t ∧ KeepsControl s t ∧
    KeepsSaved s t ∧ KeepsMemory s t ∧ t.brightness = s.brightness ∧ t.view = s.view ∧ t.inputs = s.inputs

/-- R133. The duty is floor(h * bh / 256): the product fits 16 bits, the shifted value is at most 254, full
brightness gives h - 1, and a zero factor gives 0. -/
def Obligations.DutyIsFloorOfProduct : Prop :=
  ∀ out brightness : Word,
    (duty out brightness).toNat = (hi8 out).toNat * (hi8 brightness).toNat / 256 ∧
    (hi8 out).toNat * (hi8 brightness).toNat ≤ 65025 ∧ (duty out brightness).toNat ≤ 254 ∧
    ((hi8 brightness).toNat = 255 → (duty out brightness).toNat = (hi8 out).toNat - 1) ∧
    ((hi8 out).toNat = 0 ∨ (hi8 brightness).toNat = 0 → duty out brightness = 0)

/-! ### Control transfer -/

/-- R140. DRJNZ decrements modulo 65536; if the result is not zero, `pc` is the address after the operand plus the
signed offset, else the address after the operand. An operand byte at 512 stops the fetch after the decrement. -/
def Obligations.DrjnzDecrementsAndJumps : Prop :=
  (∀ (s : State) (sel : Sel) (offset : Byte), ∃ t, exec (.drjnzB sel offset) s = .next t ∧
    t.g.readWord sel = s.g.readWord sel - 1 ∧ (∀ j, j ≠ sel → t.g.readWord j = s.g.readWord j) ∧
    (s.g.readWord sel ≠ 1 → (t.pc.toNat : Int) = (s.pc.toNat + 2 + offset.toInt) % 65536) ∧
    (s.g.readWord sel = 1 → t.pc = s.pc + 2) ∧ KeepsOutput s t ∧ KeepsAllButBanks s t) ∧
  (∀ (s : State) (sel : Sel) (offset : Word), ∃ t, exec (.drjnzW sel offset) s = .next t ∧
    t.g.readWord sel = s.g.readWord sel - 1 ∧ (∀ j, j ≠ sel → t.g.readWord j = s.g.readWord j) ∧
    (s.g.readWord sel ≠ 1 → (t.pc.toNat : Int) = (s.pc.toNat + 3 + offset.toInt) % 65536) ∧
    (s.g.readWord sel = 1 → t.pc = s.pc + 3) ∧ KeepsOutput s t ∧ KeepsAllButBanks s t) ∧
  OperandFetchStops .drjnz (fun lead s =>
    { s with pc := 512#16, g := s.g.writeWord (leadSel lead) (s.g.readWord (leadSel lead) - 1) })

/-- R141. JMP: `pc` is the address after its one operand byte plus the signed offset, modulo 65536, whatever W is. -/
def Obligations.JmpAddsSignedOffset : Prop :=
  (∀ (s : State) (offset : Byte), ∃ t, exec (.jmp offset) s = .next t ∧
    (t.pc.toNat : Int) = (s.pc.toNat + 2 + offset.toInt) % 65536 ∧ KeepsGeneral s t ∧ KeepsOutput s t ∧
    KeepsAllButBanks s t) ∧
  (∀ (b x : Byte) (rest : List Byte), leadOpcode b = .jmp → decode (b :: x :: rest) = .ok (.jmp x, rest)) ∧
  OperandFetchStops .jmp stoppedAtEnd

/-- R142. JMPABS loads the zero-extended or whole operand; the value is not checked, and one above 511 stops the next
fetch of the burst. -/
def Obligations.JmpabsLoadsAddress : Prop :=
  (∀ (s : State) (addr : Byte), ∃ t, exec (.jmpabsB addr) s = .next t ∧ t.pc.toNat = addr.toNat ∧
    KeepsGeneral s t ∧ KeepsOutput s t ∧ KeepsAllButBanks s t) ∧
  (∀ (s : State) (addr : Word), ∃ t, exec (.jmpabsW addr) s = .next t ∧ t.pc = addr ∧
    KeepsGeneral s t ∧ KeepsOutput s t ∧ KeepsAllButBanks s t ∧
    (512 ≤ addr.toNat → s.phase = .run → s.inputs = [] → step t = .fault (.fetchOutOfRange t))) ∧
  OperandFetchStops .jmpabs stoppedAtEnd

/-! ### Interrupt instructions -/

/-- R150. IVEC, whatever its vector, only advances `pc` by 1. -/
def Obligations.IvecIsNoOp : Prop :=
  ∀ (s : State) (v : Sel), ∃ t, exec (.ivec v) s = .next t ∧ t.pc = s.pc + 1 ∧ KeepsGeneral s t ∧
    KeepsOutput s t ∧ KeepsAllButBanks s t

/-- R151. ISETPC consumes its operand in every interrupt state; it writes `spc`, not `pc`, and only while ONGOING. -/
def Obligations.IsetpcRedirectsOnlyWhileOngoing : Prop :=
  (∀ (s : State) (addr : Byte), ∃ t, exec (.isetpcB addr) s = .next t ∧ t.pc = s.pc + 2 ∧
    (s.irqState = .ongoing → t.spc.toNat = addr.toNat) ∧ (s.irqState ≠ .ongoing → t.spc = s.spc) ∧
    KeepsGeneral s t ∧ KeepsOutput s t ∧ KeepsControl s t ∧ (∀ i, t.sg.readWord i = s.sg.readWord i) ∧
    (∀ i, t.so.readWord i = s.so.readWord i) ∧ KeepsMemory s t ∧ KeepsOutside s t ∧ t.phase = s.phase) ∧
  (∀ (s : State) (addr : Word), ∃ t, exec (.isetpcW addr) s = .next t ∧ t.pc = s.pc + 3 ∧
    (s.irqState = .ongoing → t.spc = addr) ∧ (s.irqState ≠ .ongoing → t.spc = s.spc) ∧
    KeepsGeneral s t ∧ KeepsOutput s t ∧ KeepsControl s t ∧ (∀ i, t.sg.readWord i = s.sg.readWord i) ∧
    (∀ i, t.so.readWord i = s.so.readWord i) ∧ KeepsMemory s t ∧ KeepsOutside s t ∧ t.phase = s.phase) ∧
  OperandFetchStops .isetpc stoppedAtEnd

/-- R152. IRET while ONGOING restores both banks and `pc` from SavedState and sets NONE, and changes neither
SavedState nor the request nor the flags; otherwise it only advances `pc` by 1. It is not blocking. -/
def Obligations.IretRestoresOnlyWhileOngoing : Prop :=
  ∀ s : State, ∃ t, exec .iret s = .next t ∧
    (s.irqState = .ongoing → (∀ i, t.g.readWord i = s.sg.readWord i) ∧
      (∀ i, t.o.readWord i = s.so.readWord i) ∧ t.pc = s.spc ∧ t.irqState = .none) ∧
    (s.irqState ≠ .ongoing → KeepsGeneral s t ∧ KeepsOutput s t ∧ t.pc = s.pc + 1 ∧ t.irqState = s.irqState) ∧
    t.paused = s.paused ∧ t.pausedAck = s.pausedAck ∧ t.irqVec = s.irqVec ∧ t.irqArg = s.irqArg ∧
    KeepsSaved s t ∧ KeepsMemory s t ∧ KeepsOutside s t ∧ t.phase = s.phase

/-! ### Reserved opcodes -/

/-- R80. A reserved opcode stops with ReservedOpcode after the leading byte: `pc` has advanced by 1, nothing else is
written and no operand is fetched, in both modes. The scan skips it by the width rule. There are 64 such bytes. -/
def Obligations.ReservedOpcodeStops : Prop :=
  (∀ (s : State) (i : Instr), i = .reservedC ∨ i = .reservedD ∨ i = .reservedE ∨ i = .reservedF →
    exec i s = .fault (.reservedOpcode { s with pc := s.pc + 1 })) ∧
  (∀ s : State, (s.phase = .run ∧ s.inputs = []) ∨ s.phase = .single → s.pc.toNat < 512 →
    12 ≤ ((Memory.read s.mem s.pc.toNat).extractLsb' 0 4).toNat →
    step s = .fault (.reservedOpcode { s with pc := s.pc + 1 })) ∧
  (∀ (m : Memory) (v : Sel) (fuel a : Nat), a < 512 → 12 ≤ ((Memory.read m a).extractLsb' 0 4).toNat →
    vectorScan m (markerByte v) (fuel + 1) a =
      vectorScan m (markerByte v) fuel (a + 1 + if leadW (Memory.read m a) then 2 else 1)) ∧
  ((List.range 256).filter fun n => !(leadOpcode (BitVec.ofNat 8 n)).valid).length = 64

/-! ### The engine -/

/-- The frame of every instruction at once, from the effect column of the opcode table (R107, R153, R174): which
opcode may write which state. -/
def Obligations.ExecFrame : Prop :=
  ∀ (i : Instr) (s t : State), exec i s = .next t →
    KeepsMemory s t ∧ t.pausedAck = s.pausedAck ∧ t.irqVec = s.irqVec ∧ t.irqArg = s.irqArg ∧
    (∀ j, t.sg.readWord j = s.sg.readWord j ∧ t.so.readWord j = s.so.readWord j) ∧
    t.brightness = s.brightness ∧ t.view = s.view ∧ t.inputs = s.inputs ∧
    (i.opcode ≠ .stop → t.paused = s.paused) ∧ (s.paused = true → t.paused = true) ∧
    (i.opcode ≠ .iret → t.irqState = s.irqState) ∧
    (i.opcode ≠ .isetpc → t.spc = s.spc) ∧
    (i.opcode ≠ .commit → t.outputs = s.outputs) ∧
    (∀ j, (i.opcode = .setreg ∨ i.opcode = .drjnz) ∧ j = i.sel ∨ i.opcode = .iret ∨
      t.g.readWord j = s.g.readWord j) ∧
    (∀ j, (i.opcode = .setout ∨ i.opcode = .modout) ∧ j = i.sel ∨ i.opcode = .iret ∨
      t.o.readWord j = s.o.readWord j) ∧
    (i.opcode ≠ .drjnz → i.opcode ≠ .jmp → i.opcode ≠ .jmpabs → i.opcode ≠ .iret →
      t.pc = s.pc + BitVec.ofNat 16 (1 + operandLen i.opcode i.width))

/-- R107. The blocking opcodes are exactly STOP, COMMIT and WAIT: they, and no other valid opcode, end a run-mode
invocation, whatever the operands and the state. -/
def Obligations.BlockingOpcodesAreThree : Prop :=
  ∀ (i : Instr) (s : State), s.phase = .run → i.wellFormed = true →
    ∃ t, exec i s = .next t ∧
      (i.opcode = .stop ∨ i.opcode = .commit ∨ i.opcode = .wait → t.phase = .idle) ∧
      (¬(i.opcode = .stop ∨ i.opcode = .commit ∨ i.opcode = .wait) → t.phase = .run)

/-- When the bytes at `pc` decode to `i`, a step of a run-mode burst is `exec i` of that state, also when the list
says that it is the engine's turn, and a step of a single-step call is `exec i` and the call's return. -/
def Obligations.StepRunsDecodedInstruction : Prop :=
  ∀ (s : State) (i : Instr) (rest : List Byte), decode s.codeBytes = .ok (i, rest) →
    (s.phase = .run → s.inputs = [] → step s = exec i s) ∧
    (∀ more, s.phase = .run → s.inputs = .engine :: more → step s = exec i { s with inputs := more }) ∧
    (∀ t, s.phase = .single → exec i s = .next t → step s = .next t.endSingle) ∧
    (∀ f, s.phase = .single → exec i s = .fault f → step s = .fault f)

/-- When the cells from `pc` on hold the encoding of `i`, a step of a run-mode burst is `exec i`. -/
def Obligations.StepRunsEncodedInstruction : Prop :=
  ∀ (s : State) (i : Instr), s.phase = .run → s.inputs = [] →
    (∀ (k : Nat) (h : k < (encode i).length), s.pc.toNat + k < 512 ∧
      Memory.read s.mem (s.pc.toNat + k) = (encode i)[k]) →
    step s = exec i s

/-- R101. A run-mode invocation of a paused engine writes `pausedAck` and nothing else; a single-step invocation does
not read `paused`: with the flag the other way it writes the same, and leaves the flag the other way. -/
def Obligations.PausedRunOnlyAcknowledges : Prop :=
  (∀ (s : State) (rest : List Action), RunInvocationNext s rest → s.paused = true →
    step s = .next { s with pausedAck := true, inputs := rest }) ∧
  (∀ (s : State) (rest : List Action), SingleStepNext s rest →
    ∃ t, step s = .next t ∧ t.phase = .single ∧ t.paused = s.paused ∧
      step { s with paused := !s.paused } = .next { t with paused := !t.paused })

/-- R102. Every invocation that passes step 1 clears `pausedAck`, also a single-step call made while paused; the next
run-mode invocation sets it again. -/
def Obligations.PassingInvocationClearsAck : Prop :=
  (∀ (s : State) (rest : List Action), RunInvocationNext s rest → s.paused = false →
    ∃ t, step s = .next t ∧ t.pausedAck = false ∧ t.phase = .run) ∧
  (∀ (s : State) (rest : List Action), SingleStepNext s rest →
    ∃ t, step s = .next t ∧ t.pausedAck = false ∧ t.phase = .single) ∧
  (∀ (s : State) (rest : List Action), RunInvocationNext s rest → s.paused = true → s.pausedAck = false →
    ∃ t, step s = .next t ∧ t.pausedAck = true ∧ t.phase = .idle)

/-- R104. The entry hook runs once, after the pause check and the clearing of `pausedAck` and before the first fetch,
in both modes, and whether or not a marker is found the invocation goes on; without a pending request nothing but
`pausedAck` and the progress of the call are written. Nowhere else does a step leave PENDING, but at `Reset`; so not
between the instructions of a burst. -/
def Obligations.EntryHookAtInvocationStart : Prop :=
  (∀ (s : State) (rest : List Action), RunInvocationNext s rest → s.paused = false →
    (s.irqState = .pending → step s = .next
      { ({ s with pausedAck := false, inputs := rest } : State).interruptEntry with phase := .run }) ∧
    (s.irqState ≠ .pending →
      step s = .next { s with pausedAck := false, inputs := rest, phase := .run })) ∧
  (∀ (s : State) (rest : List Action), SingleStepNext s rest →
    (s.irqState = .pending → step s = .next
      { ({ s with pausedAck := false, inputs := rest } : State).interruptEntry with
        phase := .single, view := .stepped }) ∧
    (s.irqState ≠ .pending → step s = .next
      { s with pausedAck := false, inputs := rest, phase := .single, view := .stepped })) ∧
  (∀ s t : State, s.irqState = .pending → step s = .next t → t.irqState ≠ .pending →
    (∃ rest, RunInvocationNext s rest ∧ s.paused = false) ∨ (∃ rest, SingleStepNext s rest) ∨
      ∃ image rest, s.inputs = .reset image :: rest)

/-- R108. A single-step call executes exactly one instruction and returns, of whatever opcode; the instruction's effect
is the same as in run mode, and the call adds the snapshot of R110 exactly when `DIAG_EN` is set. -/
def Obligations.SingleStepExecutesOne : Prop :=
  (∀ (s : State) (i : Instr) (rest : List Byte), s.phase = .single → decode s.codeBytes = .ok (i, rest) →
    i.wellFormed = true →
    ∃ t u, step s = .next t ∧ t.phase = .idle ∧ exec i { s with phase := .run } = .next u ∧
      KeepsGeneral u t ∧ KeepsOutput u t ∧ KeepsControl u t ∧ KeepsSaved u t ∧ KeepsMemory u t ∧ t.pc = u.pc ∧
      t.brightness = u.brightness ∧ t.view = u.view ∧ t.inputs = u.inputs ∧
      (Config.diagEn = true → t.outputs = .snapshot u.irqState u.g u.o :: u.outputs) ∧
      (Config.diagEn = false → t.outputs = u.outputs)) ∧
  (∀ (s : State) (rest : List Action), SingleStepNext s rest →
    ∃ t, step s = .next t ∧ t.phase = .single)

/-- R103. `Fetch8()`: nothing at `pc >= 512`, else the cell at `pc`, with `pc` advanced by 1 in 16 bits and nothing
else written. -/
def Obligations.FetchReadsCellAndAdvances : Prop :=
  (∀ s : State, 512 ≤ s.pc.toNat → s.fetch8 = none) ∧
  (∀ s : State, s.pc.toNat < 512 →
    s.fetch8 = some (Memory.read s.mem s.pc.toNat, { s with pc := s.pc + 1 }))

/-- R58. A fetch at `pc >= 512` is FetchOutOfRange with nothing written, in both modes; it is tested at each byte, so
an instruction whose operand runs past cell 511 stops at that byte, with `pc` at 512 and no register written unless
it is DRJNZ. Landing on an operand byte is no fault. -/
def Obligations.FetchOutsideMemoryStops : Prop :=
  (∀ s : State, (s.phase = .run ∧ s.inputs = []) ∨ s.phase = .single → 512 ≤ s.pc.toNat →
    step s = .fault (.fetchOutOfRange s)) ∧
  (∀ s : State, (s.phase = .run ∧ s.inputs = []) ∨ s.phase = .single → s.pc.toNat < 512 →
    (leadOpcode (Memory.read s.mem s.pc.toNat)).valid = true →
    512 < s.pc.toNat + 1 + leadOperandLen (Memory.read s.mem s.pc.toNat) →
    ∃ t, step s = .fault (.fetchOutOfRange t) ∧ t.pc = 512 ∧ KeepsOutput s t ∧ KeepsAllButBanks s t ∧
      (leadOpcode (Memory.read s.mem s.pc.toNat) ≠ .drjnz → KeepsGeneral s t) ∧
      (leadOpcode (Memory.read s.mem s.pc.toNat) = .drjnz →
        ∀ j, t.g.readWord j =
          if j = leadSel (Memory.read s.mem s.pc.toNat) then s.g.readWord j - 1 else s.g.readWord j)) ∧
  (∀ s : State, (s.phase = .run ∧ s.inputs = []) ∨ s.phase = .single →
    s.pc.toNat + 1 + leadOperandLen (Memory.read s.mem s.pc.toNat) ≤ 512 →
    (leadOpcode (Memory.read s.mem s.pc.toNat)).valid = true → ∃ t, step s = .next t)

/-! ### Interrupts -/

/-- R161. A request is recorded only while NONE; otherwise it is dropped without a trace. It may fall between any two
instructions, and it changes neither `pc` nor a register. -/
def Obligations.RequestRecordedOrDropped : Prop :=
  ∀ (s : State) (v : BitVec 2) (arg : Word) (rest : List Action),
    s.inputs = .requestInterrupt v arg :: rest → s.phase = .idle ∨ s.phase = .run →
    (s.irqState = .none →
      step s = .next { s with irqVec := v, irqArg := arg, irqState := .pending, inputs := rest }) ∧
    (s.irqState ≠ .none → step s = .next { s with inputs := rest })

/-- R163. The scan finds exactly the lowest address of its path that holds the whole marker byte; its path goes from
leading byte to leading byte by the width rule and ends at 514 at most; and no cell above 511 has a part in what it
finds. -/
def Obligations.VectorScanFindsFirstMarker : Prop :=
  ∀ (m : Memory) (v : BitVec 2),
    (∀ a, findMarker m v = some a ↔
      OnScanPath m a ∧ a < 512 ∧ Memory.read m a = markerByte v ∧
        ∀ c, OnScanPath m c → c < a → Memory.read m c ≠ markerByte v) ∧
    (findMarker m v = none ↔ ∀ a, OnScanPath m a → a < 512 → Memory.read m a ≠ markerByte v) ∧
    (∀ a, OnScanPath m a → a ≤ 514) ∧
    (∀ n : Memory, (∀ a, a < 512 → Memory.read n a = Memory.read m a) → findMarker n v = findMarker m v)

/-- R164. Entry with the marker at `a`: both banks and `pc` are saved as they were, A takes the argument, `pc` is the
marker's address, the state is ONGOING; the flags, the request and the rest are as before. -/
def Obligations.EntryFoundSavesAndVectors : Prop :=
  ∀ (s : State) (a : Nat), findMarker s.mem s.irqVec = some a →
    (∀ i, s.interruptEntry.sg.readWord i = s.g.readWord i) ∧
    (∀ i, s.interruptEntry.so.readWord i = s.o.readWord i) ∧
    s.interruptEntry.spc = s.pc ∧ s.interruptEntry.g.readWord 0 = s.irqArg ∧
    (∀ i, i ≠ 0 → s.interruptEntry.g.readWord i = s.g.readWord i) ∧ KeepsOutput s s.interruptEntry ∧
    s.interruptEntry.pc.toNat = a ∧ s.interruptEntry.irqState = .ongoing ∧
    s.interruptEntry.paused = s.paused ∧ s.interruptEntry.pausedAck = s.pausedAck ∧
    s.interruptEntry.irqVec = s.irqVec ∧ s.interruptEntry.irqArg = s.irqArg ∧
    KeepsMemory s s.interruptEntry ∧ KeepsOutside s s.interruptEntry

/-- R165. Entry with no marker: the state is NONE, and registers, `pc`, SavedState, the vector and the argument are as
before; the notice is emitted exactly when `DIAG_EN` is set; and the invocation goes on at the unchanged `pc`. -/
def Obligations.EntryNotFoundDiscardsRequest : Prop :=
  ∀ s : State, findMarker s.mem s.irqVec = none →
    s.interruptEntry.irqState = .none ∧ KeepsGeneral s s.interruptEntry ∧ KeepsOutput s s.interruptEntry ∧
    s.interruptEntry.pc = s.pc ∧ KeepsSaved s s.interruptEntry ∧ s.interruptEntry.irqVec = s.irqVec ∧
    s.interruptEntry.irqArg = s.irqArg ∧ s.interruptEntry.paused = s.paused ∧
    s.interruptEntry.pausedAck = s.pausedAck ∧ KeepsMemory s s.interruptEntry ∧
    (Config.diagEn = true → s.interruptEntry.outputs = .vectorNotFound :: s.outputs) ∧
    (Config.diagEn = false → s.interruptEntry.outputs = s.outputs) ∧
    (∀ rest, s.irqState = .pending → RunInvocationNext s rest → s.paused = false →
      ∃ t, step s = .next t ∧ t.irqState = .none ∧ t.pc = s.pc ∧ t.phase = .run) ∧
    (∀ rest, s.irqState = .pending → SingleStepNext s rest →
      ∃ t, step s = .next t ∧ t.irqState = .none ∧ t.pc = s.pc ∧ t.phase = .single)

/-- R170 and C3: an entry that finds its marker, any change of the registers and `pc` by the handler, and then IRET
restore both banks, A included, and `pc` exactly, with the state NONE. -/
def Obligations.InterruptRoundTripRestores : Prop :=
  ∀ (s : State) (a : Nat) (g o : Bank) (pc : Word), findMarker s.mem s.irqVec = some a →
    ∃ t, exec .iret { s.interruptEntry with g := g, o := o, pc := pc } = .next t ∧ KeepsGeneral s t ∧
      KeepsOutput s t ∧ t.pc = s.pc ∧ t.irqState = .none

/-- R30. The transitions of `irq_state` in any step: NONE to PENDING by a request, PENDING to ONGOING or NONE at the
start of an invocation, ONGOING to NONE by IRET, any to NONE by `Reset`, and no other. -/
def Obligations.IrqStateTransitions : Prop :=
  ∀ s t : State, step s = .next t →
    t.irqState = s.irqState ∨
    (s.irqState = .none ∧ t.irqState = .pending ∧
      ∃ v arg rest, s.inputs = .requestInterrupt v arg :: rest) ∨
    (s.irqState = .pending ∧ s.phase = .idle ∧
      ((t.irqState = .ongoing ∧ ∃ a, findMarker s.mem s.irqVec = some a) ∨
       (t.irqState = .none ∧ findMarker s.mem s.irqVec = none))) ∨
    (s.irqState = .ongoing ∧ t.irqState = .none ∧ ∃ rest, decode s.codeBytes = .ok (.iret, rest)) ∨
    (t.irqState = .none ∧ ∃ image rest, s.inputs = .reset image :: rest)

/-- R25 and R168: but for `Reset`, a step changes the saved banks only as an entry at the start of an invocation, from
PENDING to ONGOING, and the saved program counter besides only by ISETPC while ONGOING. -/
def Obligations.SavedStateWrittenByEntryOnly : Prop :=
  ∀ s t : State, step s = .next t → (∀ image rest, s.inputs ≠ .reset image :: rest) →
    (t.sg ≠ s.sg ∨ t.so ≠ s.so → s.irqState = .pending ∧ s.phase = .idle ∧ t.irqState = .ongoing) ∧
    (t.spc ≠ s.spc → (s.irqState = .pending ∧ s.phase = .idle ∧ t.irqState = .ongoing) ∨
      (s.irqState = .ongoing ∧ ((∃ addr rest, decode s.codeBytes = .ok (.isetpcB addr, rest)) ∨
        (∃ addr rest, decode s.codeBytes = .ok (.isetpcW addr, rest)))))

/-- R56 and R60: no step changes program memory but the loader's parked write of a cell and `Reset`. -/
def Obligations.ProgramMemoryWrittenByLoaderOnly : Prop :=
  ∀ s t : State, step s = .next t → t.mem ≠ s.mem →
    (∃ image rest, s.inputs = .reset image :: rest) ∨
    (s.view = .parked ∧ s.phase = .idle ∧ ∃ addr value rest, s.inputs = .writeCell addr value :: rest)

/-- R153: no program can read `paused`, `pausedAck`, the request, `spc` or `pc` into a register, nor SavedState: with
the interrupt state not ONGOING, two states that agree on the banks give the same banks after any instruction. -/
def Obligations.RegistersIndependentOfControlState : Prop :=
  ∀ (i : Instr) (s s' t t' : State), s.irqState ≠ .ongoing → s'.irqState ≠ .ongoing → KeepsGeneral s s' →
    KeepsOutput s s' → exec i s = .next t → exec i s' = .next t' → KeepsGeneral t t' ∧ KeepsOutput t t'

/-! ### Pause, resume and parked access -/

/-- The block side of R175: `SetPause(value)` writes the flag and nothing else of the block, and produces no
acknowledgement; it may fall between any two instructions. -/
def Obligations.SetPauseWritesFlagOnly : Prop :=
  ∀ (s : State) (value : Bool) (rest : List Action), s.inputs = .setPause value :: rest →
    s.phase = .idle ∨ s.phase = .run →
    ∃ t, step s = .next t ∧ t.paused = value ∧ t.pausedAck = s.pausedAck ∧ t.pc = s.pc ∧ KeepsGeneral s t ∧
      KeepsOutput s t ∧ t.irqState = s.irqState ∧ t.irqVec = s.irqVec ∧ t.irqArg = s.irqArg ∧ KeepsSaved s t ∧
      KeepsMemory s t ∧ t.outputs = s.outputs ∧ t.phase = s.phase ∧ t.inputs = rest

/-- The writers of `paused` that R28 names: a step sets it only as `SetPause(1)` or by an executed STOP, and clears it
only as `SetPause(0)` or `Reset`. -/
def Obligations.PausedWrittenByStopAndHostOnly : Prop :=
  ∀ s t : State, step s = .next t →
    (s.paused = false → t.paused = true → (∃ rest, s.inputs = .setPause true :: rest) ∨
      ((s.phase = .run ∨ s.phase = .single) ∧ ∃ rest, decode s.codeBytes = .ok (.stop, rest))) ∧
    (s.paused = true → t.paused = false → (∃ rest, s.inputs = .setPause false :: rest) ∨
      ∃ image rest, s.inputs = .reset image :: rest)

/-- The step-by-step form of R176: a step makes `pausedAck` 1 only as a run-mode invocation of a paused engine, and
makes it 0 only by an invocation that passes step 1 or by `Reset`. -/
def Obligations.AckSetByPausedRunOnly : Prop :=
  ∀ s t : State, step s = .next t →
    (s.pausedAck = false → t.pausedAck = true → s.paused = true ∧ s.phase = .idle ∧ t.phase = .idle ∧
      t.pc = s.pc ∧ (s.inputs = [] ∨ ∃ rest, s.inputs = .tick :: rest)) ∧
    (s.pausedAck = true → t.pausedAck = false → (s.phase = .idle ∧ (t.phase = .run ∨ t.phase = .single)) ∨
      ∃ image rest, s.inputs = .reset image :: rest)

/-- R211 with R177 (being parked is the model's `view`, log 6): the control context's writes of registers, register
bytes and cells happen, and are seen by the next read, while it is parked; otherwise the model has no move for them. -/
def Obligations.SharedWritesOnlyWhileParked : Prop :=
  (∀ (s : State) (i : Sel) (v : Word) (rest : List Action), s.phase = .idle → s.view = .parked →
    (s.inputs = .writeGeneral i v :: rest → ∃ t, step s = .next t ∧
      (∀ j, t.g.readWord j = if j = i then v else s.g.readWord j) ∧ KeepsOutput s t ∧ KeepsMemory s t) ∧
    (s.inputs = .writeOutput i v :: rest → ∃ t, step s = .next t ∧
      (∀ j, t.o.readWord j = if j = i then v else s.o.readWord j) ∧ KeepsGeneral s t ∧ KeepsMemory s t)) ∧
  (∀ (s : State) (j : BitVec 3) (v : Byte) (rest : List Action), s.phase = .idle → s.view = .parked →
    (s.inputs = .writeGeneralByte j v :: rest → ∃ t, step s = .next t ∧
      (∀ k, t.g.readByte k = if k = j then v else s.g.readByte k) ∧ KeepsOutput s t ∧ KeepsMemory s t) ∧
    (s.inputs = .writeOutputByte j v :: rest → ∃ t, step s = .next t ∧
      (∀ k, t.o.readByte k = if k = j then v else s.o.readByte k) ∧ KeepsGeneral s t ∧ KeepsMemory s t)) ∧
  (∀ (s : State) (a : CellAddr) (v : Byte) (rest : List Action), Memory.wf s.mem = true → s.phase = .idle →
    s.view = .parked → s.inputs = .writeCell a v :: rest → ∃ t, step s = .next t ∧
      (∀ c, Memory.read t.mem c = if c = a.toNat then v else Memory.read s.mem c) ∧ KeepsGeneral s t ∧
      KeepsOutput s t ∧ t.pc = s.pc) ∧
  (∀ (s : State) (act : Action) (rest : List Action), s.inputs = act :: rest →
    s.phase = .idle ∧ s.view ≠ .parked ∨ s.phase = .run →
    (∃ i v, act = .writeGeneral i v) ∨ (∃ i v, act = .writeOutput i v) ∨
      (∃ j v, act = .writeGeneralByte j v) ∨ (∃ j v, act = .writeOutputByte j v) ∨
      (∃ a v, act = .writeCell a v) →
    step s = .refused .notParked)

/-- R221. A request made while the engine is paused stays PENDING, with its vector and argument, across any number
of run-mode invocations, and the first invocation that passes step 1 (a run-mode one of an engine that is not paused,
or a single-step call) enters it: ONGOING at the marker, or NONE where there is no marker. -/
def Obligations.PendingSurvivesPausedRuns : Prop :=
  (∀ (n : Nat) (s : State), s.phase = .idle → (∀ act, act ∈ s.inputs → act = .tick) → s.paused = true →
    s.irqState = .pending →
    ∃ t : State, Sys2Proof.core.run n s = .next t ∧ t.irqState = .pending ∧ t.irqVec = s.irqVec ∧
      t.irqArg = s.irqArg ∧ t.paused = true ∧ t.phase = .idle) ∧
  (∀ s : State, s.irqState = .pending →
    (∃ rest, RunInvocationNext s rest ∧ s.paused = false) ∨ (∃ rest, SingleStepNext s rest) →
    ∃ t, step s = .next t ∧
      (∀ a, findMarker s.mem s.irqVec = some a → t.irqState = .ongoing ∧ t.pc.toNat = a) ∧
      (findMarker s.mem s.irqVec = none → t.irqState = .none))

/-- R176 and R177, the reads of the control context: a read of `pausedAck` returns it at any time and makes the
control context parked exactly when it is 1 with `paused = 1` (the model's reading of R11, log 6); a parked
inspection returns `g`, `o`, `pc` and `irq_state`; neither changes the block. -/
def Obligations.ControlContextReadsReturnState : Prop :=
  (∀ (s : State) (rest : List Action), s.inputs = .readAck :: rest → s.phase = .idle ∨ s.phase = .run →
    step s = .next { s with
      inputs := rest
      outputs := .ackRead s.pausedAck :: s.outputs
      view := if s.paused = true ∧ s.pausedAck = true then .parked else s.view }) ∧
  (∀ (s : State) (rest : List Action), s.inputs = .inspect :: rest → s.phase = .idle → s.view ≠ .unparked →
    step s = .next { s with
      inputs := rest
      outputs := .inspected s.g s.o s.pc s.irqState :: s.outputs })

/-- R38 and R202: before the first `Reset` every operation on the block but `Reset` is refused. -/
def Obligations.OnlyResetBeforeFirstReset : Prop :=
  ∀ s : State, s.phase = .noProgram →
    (s.inputs = [] → step s = .refused .beforeReset) ∧
    (∀ act rest, s.inputs = act :: rest → (∀ image, act ≠ .reset image) → (∀ v, act ≠ .setBrightness v) →
      step s = .refused .beforeReset)

/-- R178 (c) and R179: no `Step` is invoked while one is in progress, and no single-step call while not parked. -/
def Obligations.StepsNeverOverlap : Prop :=
  ∀ (s : State) (rest : List Action),
    (s.phase = .run → s.inputs = .tick :: rest ∨ s.inputs = .singleStep :: rest →
      step s = .refused .overlappingStep) ∧
    (s.phase = .idle → s.inputs = .singleStep :: rest → s.view = .unparked → step s = .refused .notParked)

/-! ### The invariant -/

/-- The reset state meets the invariant. -/
def Obligations.ResetMeetsInvariant : Prop := State.reset.Inv

/-- Every step from a state that meets the invariant gives a state that meets it. -/
def Obligations.StepKeepsInvariant : Prop :=
  ∀ s t : State, s.Inv → step s = .next t → t.Inv

/-- R39 (c) and R168 over any number of steps: while the interrupt state stays ONGOING, the saved banks stay those of
the state it was ONGOING in first. -/
def Obligations.OngoingKeepsSnapshot : Prop :=
  ∀ (n : Nat) (s : State) (trace : Nat → State), trace 0 = s →
    (∀ k, k < n → step (trace k) = .next (trace (k + 1))) → (∀ k, k ≤ n → (trace k).irqState = .ongoing) →
    ∀ i, (trace n).sg.readWord i = s.sg.readWord i ∧ (trace n).so.readWord i = s.so.readWord i

/-! ### Reset while not parked -/

/-- The model's choice (log 29): `Reset(program)` of an idle engine that is not parked has the same effect, for any
image. R200 and R178 (d) allow it, R33 and R177 keep another image for the parked time. -/
def Obligations.ResetOfUnparkedEngine : Prop :=
  ∀ (s : State) (image : Config.Image) (rest : List Action), s.phase = .idle → s.view = .unparked →
    s.inputs = .reset image :: rest → ∃ t, step s = .next t ∧ ResetLeaves image rest s t
end

