-- ==== Sys2Proof/Laws/Bank.lean ====
section
/-! SUPPORT. Register banks: reads after writes through the word view. -/

namespace Sys2Proof.Machine

/-- A selector is one of four. -/
theorem sel_cases (i : Sel) : i = 0 ∨ i = 1 ∨ i = 2 ∨ i = 3 := by
  revert i; decide

/-- A read of the word just written gives the value written. -/
@[simp] theorem Bank.readWord_writeWord_same (b : Bank) (i : Sel) (v : Word) :
    (b.writeWord i v).readWord i = v := by
  rcases sel_cases i with rfl | rfl | rfl | rfl <;> rfl

/-- A word write leaves the other words alone. -/
theorem Bank.readWord_writeWord_other (b : Bank) {i j : Sel} (v : Word) (h : j ≠ i) :
    (b.writeWord i v).readWord j = b.readWord j := by
  rcases sel_cases i with rfl | rfl | rfl | rfl <;> rcases sel_cases j with rfl | rfl | rfl | rfl <;>
    first | rfl | exact absurd rfl h

/-- The word view after a word write. -/
theorem Bank.readWord_writeWord (b : Bank) (i j : Sel) (v : Word) :
    (b.writeWord i v).readWord j = if j = i then v else b.readWord j := by
  split
  · rw [‹j = i›, Bank.readWord_writeWord_same]
  · exact Bank.readWord_writeWord_other b v ‹_›

/-- A bank is its four words. -/
theorem Bank.eq_of_readWord_eq {b c : Bank} (h : ∀ i, b.readWord i = c.readWord i) : b = c := by
  have h0 := h 0; have h1 := h 1; have h2 := h 2; have h3 := h 3
  cases b; cases c
  simp_all [Bank.readWord]

@[simp] theorem Bank.readWord_zero (i : Sel) : Bank.zero.readWord i = 0#16 := by
  rcases sel_cases i with rfl | rfl | rfl | rfl <;> rfl

end Sys2Proof.Machine
end

