-- ==== Sys2Proof/Laws/Decode.lean ====
section
/-! SUPPORT. The opcode table is a bijection, the fields of a leading byte are read back, and the decoder rejects
only a list that is too short. -/

namespace Sys2Proof

@[simp] theorem Opcode.ofNumber_number (o : Opcode) : Opcode.ofNumber o.number = o := by
  cases o <;> decide

theorem Opcode.number_ofNumber (n : BitVec 4) : (Opcode.ofNumber n).number = n := by
  revert n; decide

@[simp] theorem leadW_leadByte (w : Bool) (sel : Sel) (o : Opcode) : leadW (leadByte w sel o) = w := by
  revert w sel; cases o <;> decide

@[simp] theorem leadSel_leadByte (w : Bool) (sel : Sel) (o : Opcode) : leadSel (leadByte w sel o) = sel := by
  revert w sel; cases o <;> decide

@[simp] theorem leadOpcode_leadByte (w : Bool) (sel : Sel) (o : Opcode) :
    leadOpcode (leadByte w sel o) = o := by
  revert w sel; cases o <;> decide

/-- A 16-bit operand is its two cells. -/
@[simp] theorem wordOf_bytes (v : Word) : wordOf (v.extractLsb' 0 8) (v.extractLsb' 8 8) = v := by
  apply BitVec.eq_of_getLsbD_eq
  intro i hi
  unfold wordOf
  rw [BitVec.getLsbD_append]
  by_cases h : i < 8
  · simp [h]
  · simp [h, show i - 8 < 8 by omega, show 8 + (i - 8) = i by omega]

theorem operandLen_le_two (o : Opcode) (w : Bool) : operandLen o w ≤ 2 := by
  cases o <;> cases w <;> decide

/-- The engine consumes at most two operand bytes (R70). -/
theorem consumedOperands_le_two (b : Byte) : consumedOperands b ≤ 2 := by
  unfold consumedOperands
  split
  · exact operandLen_le_two _ _
  · omega

/-- With as many operand bytes as the engine consumes there is an instruction. -/
theorem assemble_isSome (b : Byte) (ops : List Byte) (h : ops.length = consumedOperands b) :
    ∃ i, assemble b ops = some i := by
  unfold consumedOperands leadOperandLen at h
  unfold assemble
  cases ho : leadOpcode b <;> simp only [ho, Opcode.valid, operandLen, if_true] at h ⊢ <;>
    first
    | exact ⟨_, rfl⟩
    | (obtain ⟨x, rfl⟩ := List.length_eq_one_iff.1 h; exact ⟨_, rfl⟩)
    | (cases hw : leadW b <;> simp only [hw, if_true, Bool.false_eq_true, if_false] at h
       · obtain ⟨x, rfl⟩ := List.length_eq_one_iff.1 h; exact ⟨_, rfl⟩
       · obtain ⟨x, y, rfl⟩ := List.length_eq_two.1 h; exact ⟨_, rfl⟩)

/-- With enough bytes the decoder answers, and it takes exactly the bytes that the engine consumes. -/
theorem decode_of_enough (b : Byte) (rest : List Byte) (h : consumedOperands b ≤ rest.length) :
    ∃ i, assemble b (rest.take (consumedOperands b)) = some i ∧
      decode (b :: rest) = .ok (i, rest.drop (consumedOperands b)) := by
  obtain ⟨i, hi⟩ := assemble_isSome b (rest.take (consumedOperands b)) (by simp [h])
  exact ⟨i, hi, by simp [decode, Nat.not_lt.2 h, hi]⟩

/-- With too few bytes the decoder says which leading byte lacks operands. -/
theorem decode_of_short (b : Byte) (rest : List Byte) (h : rest.length < consumedOperands b) :
    decode (b :: rest) = .error (.operandMissing b) := by
  simp [decode, h]

/-- What the decoder answers, all cases. -/
theorem decode_ok {bs rest : List Byte} {i : Instr} (h : decode bs = .ok (i, rest)) :
    ∃ b tail, bs = b :: tail ∧ consumedOperands b ≤ tail.length ∧
      assemble b (tail.take (consumedOperands b)) = some i ∧ rest = tail.drop (consumedOperands b) := by
  cases bs with
  | nil => simp [decode] at h
  | cons b tail =>
    by_cases hl : tail.length < consumedOperands b
    · rw [decode_of_short b tail hl] at h; cases h
    · obtain ⟨j, hj, hd⟩ := decode_of_enough b tail (Nat.not_lt.1 hl)
      rw [hd] at h
      cases h
      exact ⟨b, tail, rfl, Nat.not_lt.1 hl, hj, rfl⟩

/-- An assembled instruction has the opcode of its leading byte. -/
theorem assemble_opcode {b : Byte} {ops : List Byte} {i : Instr} (h : assemble b ops = some i) :
    i.opcode = leadOpcode b := by
  unfold assemble at h
  cases ho : leadOpcode b <;> simp only [ho, withOperand] at h <;>
    first
    | (cases h; rfl)
    | (split at h <;> cases h <;> rfl)

end Sys2Proof
end

