-- ==== Sys2Proof/Laws/State.lean ====
section
/-! SUPPORT. One lemma per field per update of State: what each named update writes and what it leaves, so that no
later proof unfolds a record update. -/

namespace Sys2Proof.Machine

/-! ### setPaused -/

@[simp] theorem setPaused_g (value : Bool) (s : State) : (s.setPaused value).g = s.g := rfl

@[simp] theorem setPaused_o (value : Bool) (s : State) : (s.setPaused value).o = s.o := rfl

@[simp] theorem setPaused_pc (value : Bool) (s : State) : (s.setPaused value).pc = s.pc := rfl

@[simp] theorem setPaused_paused (value : Bool) (s : State) : (s.setPaused value).paused = value := rfl

@[simp] theorem setPaused_pausedAck (value : Bool) (s : State) : (s.setPaused value).pausedAck = s.pausedAck := rfl

@[simp] theorem setPaused_irqState (value : Bool) (s : State) : (s.setPaused value).irqState = s.irqState := rfl

@[simp] theorem setPaused_irqVec (value : Bool) (s : State) : (s.setPaused value).irqVec = s.irqVec := rfl

@[simp] theorem setPaused_irqArg (value : Bool) (s : State) : (s.setPaused value).irqArg = s.irqArg := rfl

@[simp] theorem setPaused_sg (value : Bool) (s : State) : (s.setPaused value).sg = s.sg := rfl

@[simp] theorem setPaused_so (value : Bool) (s : State) : (s.setPaused value).so = s.so := rfl

@[simp] theorem setPaused_spc (value : Bool) (s : State) : (s.setPaused value).spc = s.spc := rfl

@[simp] theorem setPaused_mem (value : Bool) (s : State) : (s.setPaused value).mem = s.mem := rfl

@[simp] theorem setPaused_brightness (value : Bool) (s : State) : (s.setPaused value).brightness = s.brightness := rfl

@[simp] theorem setPaused_phase (value : Bool) (s : State) : (s.setPaused value).phase = s.phase := rfl

@[simp] theorem setPaused_view (value : Bool) (s : State) : (s.setPaused value).view = s.view := rfl

@[simp] theorem setPaused_inputs (value : Bool) (s : State) : (s.setPaused value).inputs = s.inputs := rfl

@[simp] theorem setPaused_outputs (value : Bool) (s : State) : (s.setPaused value).outputs = s.outputs := rfl

/-! ### setAck -/

@[simp] theorem setAck_g (value : Bool) (s : State) : (s.setAck value).g = s.g := rfl

@[simp] theorem setAck_o (value : Bool) (s : State) : (s.setAck value).o = s.o := rfl

@[simp] theorem setAck_pc (value : Bool) (s : State) : (s.setAck value).pc = s.pc := rfl

@[simp] theorem setAck_paused (value : Bool) (s : State) : (s.setAck value).paused = s.paused := rfl

@[simp] theorem setAck_pausedAck (value : Bool) (s : State) : (s.setAck value).pausedAck = value := rfl

@[simp] theorem setAck_irqState (value : Bool) (s : State) : (s.setAck value).irqState = s.irqState := rfl

@[simp] theorem setAck_irqVec (value : Bool) (s : State) : (s.setAck value).irqVec = s.irqVec := rfl

@[simp] theorem setAck_irqArg (value : Bool) (s : State) : (s.setAck value).irqArg = s.irqArg := rfl

@[simp] theorem setAck_sg (value : Bool) (s : State) : (s.setAck value).sg = s.sg := rfl

@[simp] theorem setAck_so (value : Bool) (s : State) : (s.setAck value).so = s.so := rfl

@[simp] theorem setAck_spc (value : Bool) (s : State) : (s.setAck value).spc = s.spc := rfl

@[simp] theorem setAck_mem (value : Bool) (s : State) : (s.setAck value).mem = s.mem := rfl

@[simp] theorem setAck_brightness (value : Bool) (s : State) : (s.setAck value).brightness = s.brightness := rfl

@[simp] theorem setAck_phase (value : Bool) (s : State) : (s.setAck value).phase = s.phase := rfl

@[simp] theorem setAck_view (value : Bool) (s : State) : (s.setAck value).view = s.view := rfl

@[simp] theorem setAck_inputs (value : Bool) (s : State) : (s.setAck value).inputs = s.inputs := rfl

@[simp] theorem setAck_outputs (value : Bool) (s : State) : (s.setAck value).outputs = s.outputs := rfl

/-! ### setGeneral -/

@[simp] theorem setGeneral_g (i : Sel) (v : Word) (s : State) : (s.setGeneral i v).g = s.g.writeWord i v := rfl

@[simp] theorem setGeneral_o (i : Sel) (v : Word) (s : State) : (s.setGeneral i v).o = s.o := rfl

@[simp] theorem setGeneral_pc (i : Sel) (v : Word) (s : State) : (s.setGeneral i v).pc = s.pc := rfl

@[simp] theorem setGeneral_paused (i : Sel) (v : Word) (s : State) : (s.setGeneral i v).paused = s.paused := rfl

@[simp] theorem setGeneral_pausedAck (i : Sel) (v : Word) (s : State) : (s.setGeneral i v).pausedAck = s.pausedAck := rfl

@[simp] theorem setGeneral_irqState (i : Sel) (v : Word) (s : State) : (s.setGeneral i v).irqState = s.irqState := rfl

@[simp] theorem setGeneral_irqVec (i : Sel) (v : Word) (s : State) : (s.setGeneral i v).irqVec = s.irqVec := rfl

@[simp] theorem setGeneral_irqArg (i : Sel) (v : Word) (s : State) : (s.setGeneral i v).irqArg = s.irqArg := rfl

@[simp] theorem setGeneral_sg (i : Sel) (v : Word) (s : State) : (s.setGeneral i v).sg = s.sg := rfl

@[simp] theorem setGeneral_so (i : Sel) (v : Word) (s : State) : (s.setGeneral i v).so = s.so := rfl

@[simp] theorem setGeneral_spc (i : Sel) (v : Word) (s : State) : (s.setGeneral i v).spc = s.spc := rfl

@[simp] theorem setGeneral_mem (i : Sel) (v : Word) (s : State) : (s.setGeneral i v).mem = s.mem := rfl

@[simp] theorem setGeneral_brightness (i : Sel) (v : Word) (s : State) : (s.setGeneral i v).brightness = s.brightness := rfl

@[simp] theorem setGeneral_phase (i : Sel) (v : Word) (s : State) : (s.setGeneral i v).phase = s.phase := rfl

@[simp] theorem setGeneral_view (i : Sel) (v : Word) (s : State) : (s.setGeneral i v).view = s.view := rfl

@[simp] theorem setGeneral_inputs (i : Sel) (v : Word) (s : State) : (s.setGeneral i v).inputs = s.inputs := rfl

@[simp] theorem setGeneral_outputs (i : Sel) (v : Word) (s : State) : (s.setGeneral i v).outputs = s.outputs := rfl

/-! ### setOutput -/

@[simp] theorem setOutput_g (i : Sel) (v : Word) (s : State) : (s.setOutput i v).g = s.g := rfl

@[simp] theorem setOutput_o (i : Sel) (v : Word) (s : State) : (s.setOutput i v).o = s.o.writeWord i v := rfl

@[simp] theorem setOutput_pc (i : Sel) (v : Word) (s : State) : (s.setOutput i v).pc = s.pc := rfl

@[simp] theorem setOutput_paused (i : Sel) (v : Word) (s : State) : (s.setOutput i v).paused = s.paused := rfl

@[simp] theorem setOutput_pausedAck (i : Sel) (v : Word) (s : State) : (s.setOutput i v).pausedAck = s.pausedAck := rfl

@[simp] theorem setOutput_irqState (i : Sel) (v : Word) (s : State) : (s.setOutput i v).irqState = s.irqState := rfl

@[simp] theorem setOutput_irqVec (i : Sel) (v : Word) (s : State) : (s.setOutput i v).irqVec = s.irqVec := rfl

@[simp] theorem setOutput_irqArg (i : Sel) (v : Word) (s : State) : (s.setOutput i v).irqArg = s.irqArg := rfl

@[simp] theorem setOutput_sg (i : Sel) (v : Word) (s : State) : (s.setOutput i v).sg = s.sg := rfl

@[simp] theorem setOutput_so (i : Sel) (v : Word) (s : State) : (s.setOutput i v).so = s.so := rfl

@[simp] theorem setOutput_spc (i : Sel) (v : Word) (s : State) : (s.setOutput i v).spc = s.spc := rfl

@[simp] theorem setOutput_mem (i : Sel) (v : Word) (s : State) : (s.setOutput i v).mem = s.mem := rfl

@[simp] theorem setOutput_brightness (i : Sel) (v : Word) (s : State) : (s.setOutput i v).brightness = s.brightness := rfl

@[simp] theorem setOutput_phase (i : Sel) (v : Word) (s : State) : (s.setOutput i v).phase = s.phase := rfl

@[simp] theorem setOutput_view (i : Sel) (v : Word) (s : State) : (s.setOutput i v).view = s.view := rfl

@[simp] theorem setOutput_inputs (i : Sel) (v : Word) (s : State) : (s.setOutput i v).inputs = s.inputs := rfl

@[simp] theorem setOutput_outputs (i : Sel) (v : Word) (s : State) : (s.setOutput i v).outputs = s.outputs := rfl

/-! ### setGeneralByte -/

@[simp] theorem setGeneralByte_g (j : BitVec 3) (v : Byte) (s : State) : (s.setGeneralByte j v).g = s.g.writeByte j v := rfl

@[simp] theorem setGeneralByte_o (j : BitVec 3) (v : Byte) (s : State) : (s.setGeneralByte j v).o = s.o := rfl

@[simp] theorem setGeneralByte_pc (j : BitVec 3) (v : Byte) (s : State) : (s.setGeneralByte j v).pc = s.pc := rfl

@[simp] theorem setGeneralByte_paused (j : BitVec 3) (v : Byte) (s : State) : (s.setGeneralByte j v).paused = s.paused := rfl

@[simp] theorem setGeneralByte_pausedAck (j : BitVec 3) (v : Byte) (s : State) : (s.setGeneralByte j v).pausedAck = s.pausedAck := rfl

@[simp] theorem setGeneralByte_irqState (j : BitVec 3) (v : Byte) (s : State) : (s.setGeneralByte j v).irqState = s.irqState := rfl

@[simp] theorem setGeneralByte_irqVec (j : BitVec 3) (v : Byte) (s : State) : (s.setGeneralByte j v).irqVec = s.irqVec := rfl

@[simp] theorem setGeneralByte_irqArg (j : BitVec 3) (v : Byte) (s : State) : (s.setGeneralByte j v).irqArg = s.irqArg := rfl

@[simp] theorem setGeneralByte_sg (j : BitVec 3) (v : Byte) (s : State) : (s.setGeneralByte j v).sg = s.sg := rfl

@[simp] theorem setGeneralByte_so (j : BitVec 3) (v : Byte) (s : State) : (s.setGeneralByte j v).so = s.so := rfl

@[simp] theorem setGeneralByte_spc (j : BitVec 3) (v : Byte) (s : State) : (s.setGeneralByte j v).spc = s.spc := rfl

@[simp] theorem setGeneralByte_mem (j : BitVec 3) (v : Byte) (s : State) : (s.setGeneralByte j v).mem = s.mem := rfl

@[simp] theorem setGeneralByte_brightness (j : BitVec 3) (v : Byte) (s : State) : (s.setGeneralByte j v).brightness = s.brightness := rfl

@[simp] theorem setGeneralByte_phase (j : BitVec 3) (v : Byte) (s : State) : (s.setGeneralByte j v).phase = s.phase := rfl

@[simp] theorem setGeneralByte_view (j : BitVec 3) (v : Byte) (s : State) : (s.setGeneralByte j v).view = s.view := rfl

@[simp] theorem setGeneralByte_inputs (j : BitVec 3) (v : Byte) (s : State) : (s.setGeneralByte j v).inputs = s.inputs := rfl

@[simp] theorem setGeneralByte_outputs (j : BitVec 3) (v : Byte) (s : State) : (s.setGeneralByte j v).outputs = s.outputs := rfl

/-! ### setOutputByte -/

@[simp] theorem setOutputByte_g (j : BitVec 3) (v : Byte) (s : State) : (s.setOutputByte j v).g = s.g := rfl

@[simp] theorem setOutputByte_o (j : BitVec 3) (v : Byte) (s : State) : (s.setOutputByte j v).o = s.o.writeByte j v := rfl

@[simp] theorem setOutputByte_pc (j : BitVec 3) (v : Byte) (s : State) : (s.setOutputByte j v).pc = s.pc := rfl

@[simp] theorem setOutputByte_paused (j : BitVec 3) (v : Byte) (s : State) : (s.setOutputByte j v).paused = s.paused := rfl

@[simp] theorem setOutputByte_pausedAck (j : BitVec 3) (v : Byte) (s : State) : (s.setOutputByte j v).pausedAck = s.pausedAck := rfl

@[simp] theorem setOutputByte_irqState (j : BitVec 3) (v : Byte) (s : State) : (s.setOutputByte j v).irqState = s.irqState := rfl

@[simp] theorem setOutputByte_irqVec (j : BitVec 3) (v : Byte) (s : State) : (s.setOutputByte j v).irqVec = s.irqVec := rfl

@[simp] theorem setOutputByte_irqArg (j : BitVec 3) (v : Byte) (s : State) : (s.setOutputByte j v).irqArg = s.irqArg := rfl

@[simp] theorem setOutputByte_sg (j : BitVec 3) (v : Byte) (s : State) : (s.setOutputByte j v).sg = s.sg := rfl

@[simp] theorem setOutputByte_so (j : BitVec 3) (v : Byte) (s : State) : (s.setOutputByte j v).so = s.so := rfl

@[simp] theorem setOutputByte_spc (j : BitVec 3) (v : Byte) (s : State) : (s.setOutputByte j v).spc = s.spc := rfl

@[simp] theorem setOutputByte_mem (j : BitVec 3) (v : Byte) (s : State) : (s.setOutputByte j v).mem = s.mem := rfl

@[simp] theorem setOutputByte_brightness (j : BitVec 3) (v : Byte) (s : State) : (s.setOutputByte j v).brightness = s.brightness := rfl

@[simp] theorem setOutputByte_phase (j : BitVec 3) (v : Byte) (s : State) : (s.setOutputByte j v).phase = s.phase := rfl

@[simp] theorem setOutputByte_view (j : BitVec 3) (v : Byte) (s : State) : (s.setOutputByte j v).view = s.view := rfl

@[simp] theorem setOutputByte_inputs (j : BitVec 3) (v : Byte) (s : State) : (s.setOutputByte j v).inputs = s.inputs := rfl

@[simp] theorem setOutputByte_outputs (j : BitVec 3) (v : Byte) (s : State) : (s.setOutputByte j v).outputs = s.outputs := rfl

/-! ### setCell -/

@[simp] theorem setCell_g (addr : CellAddr) (v : Byte) (s : State) : (s.setCell addr v).g = s.g := rfl

@[simp] theorem setCell_o (addr : CellAddr) (v : Byte) (s : State) : (s.setCell addr v).o = s.o := rfl

@[simp] theorem setCell_pc (addr : CellAddr) (v : Byte) (s : State) : (s.setCell addr v).pc = s.pc := rfl

@[simp] theorem setCell_paused (addr : CellAddr) (v : Byte) (s : State) : (s.setCell addr v).paused = s.paused := rfl

@[simp] theorem setCell_pausedAck (addr : CellAddr) (v : Byte) (s : State) : (s.setCell addr v).pausedAck = s.pausedAck := rfl

@[simp] theorem setCell_irqState (addr : CellAddr) (v : Byte) (s : State) : (s.setCell addr v).irqState = s.irqState := rfl

@[simp] theorem setCell_irqVec (addr : CellAddr) (v : Byte) (s : State) : (s.setCell addr v).irqVec = s.irqVec := rfl

@[simp] theorem setCell_irqArg (addr : CellAddr) (v : Byte) (s : State) : (s.setCell addr v).irqArg = s.irqArg := rfl

@[simp] theorem setCell_sg (addr : CellAddr) (v : Byte) (s : State) : (s.setCell addr v).sg = s.sg := rfl

@[simp] theorem setCell_so (addr : CellAddr) (v : Byte) (s : State) : (s.setCell addr v).so = s.so := rfl

@[simp] theorem setCell_spc (addr : CellAddr) (v : Byte) (s : State) : (s.setCell addr v).spc = s.spc := rfl

@[simp] theorem setCell_mem (addr : CellAddr) (v : Byte) (s : State) : (s.setCell addr v).mem = Memory.write s.mem addr.toNat v := rfl

@[simp] theorem setCell_brightness (addr : CellAddr) (v : Byte) (s : State) : (s.setCell addr v).brightness = s.brightness := rfl

@[simp] theorem setCell_phase (addr : CellAddr) (v : Byte) (s : State) : (s.setCell addr v).phase = s.phase := rfl

@[simp] theorem setCell_view (addr : CellAddr) (v : Byte) (s : State) : (s.setCell addr v).view = s.view := rfl

@[simp] theorem setCell_inputs (addr : CellAddr) (v : Byte) (s : State) : (s.setCell addr v).inputs = s.inputs := rfl

@[simp] theorem setCell_outputs (addr : CellAddr) (v : Byte) (s : State) : (s.setCell addr v).outputs = s.outputs := rfl

/-! ### setBrightness -/

@[simp] theorem setBrightness_g (v : Word) (s : State) : (s.setBrightness v).g = s.g := rfl

@[simp] theorem setBrightness_o (v : Word) (s : State) : (s.setBrightness v).o = s.o := rfl

@[simp] theorem setBrightness_pc (v : Word) (s : State) : (s.setBrightness v).pc = s.pc := rfl

@[simp] theorem setBrightness_paused (v : Word) (s : State) : (s.setBrightness v).paused = s.paused := rfl

@[simp] theorem setBrightness_pausedAck (v : Word) (s : State) : (s.setBrightness v).pausedAck = s.pausedAck := rfl

@[simp] theorem setBrightness_irqState (v : Word) (s : State) : (s.setBrightness v).irqState = s.irqState := rfl

@[simp] theorem setBrightness_irqVec (v : Word) (s : State) : (s.setBrightness v).irqVec = s.irqVec := rfl

@[simp] theorem setBrightness_irqArg (v : Word) (s : State) : (s.setBrightness v).irqArg = s.irqArg := rfl

@[simp] theorem setBrightness_sg (v : Word) (s : State) : (s.setBrightness v).sg = s.sg := rfl

@[simp] theorem setBrightness_so (v : Word) (s : State) : (s.setBrightness v).so = s.so := rfl

@[simp] theorem setBrightness_spc (v : Word) (s : State) : (s.setBrightness v).spc = s.spc := rfl

@[simp] theorem setBrightness_mem (v : Word) (s : State) : (s.setBrightness v).mem = s.mem := rfl

@[simp] theorem setBrightness_brightness (v : Word) (s : State) : (s.setBrightness v).brightness = v := rfl

@[simp] theorem setBrightness_phase (v : Word) (s : State) : (s.setBrightness v).phase = s.phase := rfl

@[simp] theorem setBrightness_view (v : Word) (s : State) : (s.setBrightness v).view = s.view := rfl

@[simp] theorem setBrightness_inputs (v : Word) (s : State) : (s.setBrightness v).inputs = s.inputs := rfl

@[simp] theorem setBrightness_outputs (v : Word) (s : State) : (s.setBrightness v).outputs = s.outputs := rfl

/-! ### setPhase -/

@[simp] theorem setPhase_g (p : Phase) (s : State) : (s.setPhase p).g = s.g := rfl

@[simp] theorem setPhase_o (p : Phase) (s : State) : (s.setPhase p).o = s.o := rfl

@[simp] theorem setPhase_pc (p : Phase) (s : State) : (s.setPhase p).pc = s.pc := rfl

@[simp] theorem setPhase_paused (p : Phase) (s : State) : (s.setPhase p).paused = s.paused := rfl

@[simp] theorem setPhase_pausedAck (p : Phase) (s : State) : (s.setPhase p).pausedAck = s.pausedAck := rfl

@[simp] theorem setPhase_irqState (p : Phase) (s : State) : (s.setPhase p).irqState = s.irqState := rfl

@[simp] theorem setPhase_irqVec (p : Phase) (s : State) : (s.setPhase p).irqVec = s.irqVec := rfl

@[simp] theorem setPhase_irqArg (p : Phase) (s : State) : (s.setPhase p).irqArg = s.irqArg := rfl

@[simp] theorem setPhase_sg (p : Phase) (s : State) : (s.setPhase p).sg = s.sg := rfl

@[simp] theorem setPhase_so (p : Phase) (s : State) : (s.setPhase p).so = s.so := rfl

@[simp] theorem setPhase_spc (p : Phase) (s : State) : (s.setPhase p).spc = s.spc := rfl

@[simp] theorem setPhase_mem (p : Phase) (s : State) : (s.setPhase p).mem = s.mem := rfl

@[simp] theorem setPhase_brightness (p : Phase) (s : State) : (s.setPhase p).brightness = s.brightness := rfl

@[simp] theorem setPhase_phase (p : Phase) (s : State) : (s.setPhase p).phase = p := rfl

@[simp] theorem setPhase_view (p : Phase) (s : State) : (s.setPhase p).view = s.view := rfl

@[simp] theorem setPhase_inputs (p : Phase) (s : State) : (s.setPhase p).inputs = s.inputs := rfl

@[simp] theorem setPhase_outputs (p : Phase) (s : State) : (s.setPhase p).outputs = s.outputs := rfl

/-! ### setView -/

@[simp] theorem setView_g (v : ParkView) (s : State) : (s.setView v).g = s.g := rfl

@[simp] theorem setView_o (v : ParkView) (s : State) : (s.setView v).o = s.o := rfl

@[simp] theorem setView_pc (v : ParkView) (s : State) : (s.setView v).pc = s.pc := rfl

@[simp] theorem setView_paused (v : ParkView) (s : State) : (s.setView v).paused = s.paused := rfl

@[simp] theorem setView_pausedAck (v : ParkView) (s : State) : (s.setView v).pausedAck = s.pausedAck := rfl

@[simp] theorem setView_irqState (v : ParkView) (s : State) : (s.setView v).irqState = s.irqState := rfl

@[simp] theorem setView_irqVec (v : ParkView) (s : State) : (s.setView v).irqVec = s.irqVec := rfl

@[simp] theorem setView_irqArg (v : ParkView) (s : State) : (s.setView v).irqArg = s.irqArg := rfl

@[simp] theorem setView_sg (v : ParkView) (s : State) : (s.setView v).sg = s.sg := rfl

@[simp] theorem setView_so (v : ParkView) (s : State) : (s.setView v).so = s.so := rfl

@[simp] theorem setView_spc (v : ParkView) (s : State) : (s.setView v).spc = s.spc := rfl

@[simp] theorem setView_mem (v : ParkView) (s : State) : (s.setView v).mem = s.mem := rfl

@[simp] theorem setView_brightness (v : ParkView) (s : State) : (s.setView v).brightness = s.brightness := rfl

@[simp] theorem setView_phase (v : ParkView) (s : State) : (s.setView v).phase = s.phase := rfl

@[simp] theorem setView_view (v : ParkView) (s : State) : (s.setView v).view = v := rfl

@[simp] theorem setView_inputs (v : ParkView) (s : State) : (s.setView v).inputs = s.inputs := rfl

@[simp] theorem setView_outputs (v : ParkView) (s : State) : (s.setView v).outputs = s.outputs := rfl

/-! ### setInputs -/

@[simp] theorem setInputs_g (rest : List Action) (s : State) : (s.setInputs rest).g = s.g := rfl

@[simp] theorem setInputs_o (rest : List Action) (s : State) : (s.setInputs rest).o = s.o := rfl

@[simp] theorem setInputs_pc (rest : List Action) (s : State) : (s.setInputs rest).pc = s.pc := rfl

@[simp] theorem setInputs_paused (rest : List Action) (s : State) : (s.setInputs rest).paused = s.paused := rfl

@[simp] theorem setInputs_pausedAck (rest : List Action) (s : State) : (s.setInputs rest).pausedAck = s.pausedAck := rfl

@[simp] theorem setInputs_irqState (rest : List Action) (s : State) : (s.setInputs rest).irqState = s.irqState := rfl

@[simp] theorem setInputs_irqVec (rest : List Action) (s : State) : (s.setInputs rest).irqVec = s.irqVec := rfl

@[simp] theorem setInputs_irqArg (rest : List Action) (s : State) : (s.setInputs rest).irqArg = s.irqArg := rfl

@[simp] theorem setInputs_sg (rest : List Action) (s : State) : (s.setInputs rest).sg = s.sg := rfl

@[simp] theorem setInputs_so (rest : List Action) (s : State) : (s.setInputs rest).so = s.so := rfl

@[simp] theorem setInputs_spc (rest : List Action) (s : State) : (s.setInputs rest).spc = s.spc := rfl

@[simp] theorem setInputs_mem (rest : List Action) (s : State) : (s.setInputs rest).mem = s.mem := rfl

@[simp] theorem setInputs_brightness (rest : List Action) (s : State) : (s.setInputs rest).brightness = s.brightness := rfl

@[simp] theorem setInputs_phase (rest : List Action) (s : State) : (s.setInputs rest).phase = s.phase := rfl

@[simp] theorem setInputs_view (rest : List Action) (s : State) : (s.setInputs rest).view = s.view := rfl

@[simp] theorem setInputs_inputs (rest : List Action) (s : State) : (s.setInputs rest).inputs = rest := rfl

@[simp] theorem setInputs_outputs (rest : List Action) (s : State) : (s.setInputs rest).outputs = s.outputs := rfl

/-! ### setPc -/

@[simp] theorem setPc_g (target : Word) (s : State) : (s.setPc target).g = s.g := rfl

@[simp] theorem setPc_o (target : Word) (s : State) : (s.setPc target).o = s.o := rfl

@[simp] theorem setPc_pc (target : Word) (s : State) : (s.setPc target).pc = target := rfl

@[simp] theorem setPc_paused (target : Word) (s : State) : (s.setPc target).paused = s.paused := rfl

@[simp] theorem setPc_pausedAck (target : Word) (s : State) : (s.setPc target).pausedAck = s.pausedAck := rfl

@[simp] theorem setPc_irqState (target : Word) (s : State) : (s.setPc target).irqState = s.irqState := rfl

@[simp] theorem setPc_irqVec (target : Word) (s : State) : (s.setPc target).irqVec = s.irqVec := rfl

@[simp] theorem setPc_irqArg (target : Word) (s : State) : (s.setPc target).irqArg = s.irqArg := rfl

@[simp] theorem setPc_sg (target : Word) (s : State) : (s.setPc target).sg = s.sg := rfl

@[simp] theorem setPc_so (target : Word) (s : State) : (s.setPc target).so = s.so := rfl

@[simp] theorem setPc_spc (target : Word) (s : State) : (s.setPc target).spc = s.spc := rfl

@[simp] theorem setPc_mem (target : Word) (s : State) : (s.setPc target).mem = s.mem := rfl

@[simp] theorem setPc_brightness (target : Word) (s : State) : (s.setPc target).brightness = s.brightness := rfl

@[simp] theorem setPc_phase (target : Word) (s : State) : (s.setPc target).phase = s.phase := rfl

@[simp] theorem setPc_view (target : Word) (s : State) : (s.setPc target).view = s.view := rfl

@[simp] theorem setPc_inputs (target : Word) (s : State) : (s.setPc target).inputs = s.inputs := rfl

@[simp] theorem setPc_outputs (target : Word) (s : State) : (s.setPc target).outputs = s.outputs := rfl

/-! ### advance -/

@[simp] theorem advance_g (n : Nat) (s : State) : (s.advance n).g = s.g := rfl

@[simp] theorem advance_o (n : Nat) (s : State) : (s.advance n).o = s.o := rfl

@[simp] theorem advance_pc (n : Nat) (s : State) : (s.advance n).pc = s.pc + BitVec.ofNat 16 n := rfl

@[simp] theorem advance_paused (n : Nat) (s : State) : (s.advance n).paused = s.paused := rfl

@[simp] theorem advance_pausedAck (n : Nat) (s : State) : (s.advance n).pausedAck = s.pausedAck := rfl

@[simp] theorem advance_irqState (n : Nat) (s : State) : (s.advance n).irqState = s.irqState := rfl

@[simp] theorem advance_irqVec (n : Nat) (s : State) : (s.advance n).irqVec = s.irqVec := rfl

@[simp] theorem advance_irqArg (n : Nat) (s : State) : (s.advance n).irqArg = s.irqArg := rfl

@[simp] theorem advance_sg (n : Nat) (s : State) : (s.advance n).sg = s.sg := rfl

@[simp] theorem advance_so (n : Nat) (s : State) : (s.advance n).so = s.so := rfl

@[simp] theorem advance_spc (n : Nat) (s : State) : (s.advance n).spc = s.spc := rfl

@[simp] theorem advance_mem (n : Nat) (s : State) : (s.advance n).mem = s.mem := rfl

@[simp] theorem advance_brightness (n : Nat) (s : State) : (s.advance n).brightness = s.brightness := rfl

@[simp] theorem advance_phase (n : Nat) (s : State) : (s.advance n).phase = s.phase := rfl

@[simp] theorem advance_view (n : Nat) (s : State) : (s.advance n).view = s.view := rfl

@[simp] theorem advance_inputs (n : Nat) (s : State) : (s.advance n).inputs = s.inputs := rfl

@[simp] theorem advance_outputs (n : Nat) (s : State) : (s.advance n).outputs = s.outputs := rfl

/-! ### setSpc -/

@[simp] theorem setSpc_g (target : Word) (s : State) : (s.setSpc target).g = s.g := rfl

@[simp] theorem setSpc_o (target : Word) (s : State) : (s.setSpc target).o = s.o := rfl

@[simp] theorem setSpc_pc (target : Word) (s : State) : (s.setSpc target).pc = s.pc := rfl

@[simp] theorem setSpc_paused (target : Word) (s : State) : (s.setSpc target).paused = s.paused := rfl

@[simp] theorem setSpc_pausedAck (target : Word) (s : State) : (s.setSpc target).pausedAck = s.pausedAck := rfl

@[simp] theorem setSpc_irqState (target : Word) (s : State) : (s.setSpc target).irqState = s.irqState := rfl

@[simp] theorem setSpc_irqVec (target : Word) (s : State) : (s.setSpc target).irqVec = s.irqVec := rfl

@[simp] theorem setSpc_irqArg (target : Word) (s : State) : (s.setSpc target).irqArg = s.irqArg := rfl

@[simp] theorem setSpc_sg (target : Word) (s : State) : (s.setSpc target).sg = s.sg := rfl

@[simp] theorem setSpc_so (target : Word) (s : State) : (s.setSpc target).so = s.so := rfl

@[simp] theorem setSpc_spc (target : Word) (s : State) : (s.setSpc target).spc = target := rfl

@[simp] theorem setSpc_mem (target : Word) (s : State) : (s.setSpc target).mem = s.mem := rfl

@[simp] theorem setSpc_brightness (target : Word) (s : State) : (s.setSpc target).brightness = s.brightness := rfl

@[simp] theorem setSpc_phase (target : Word) (s : State) : (s.setSpc target).phase = s.phase := rfl

@[simp] theorem setSpc_view (target : Word) (s : State) : (s.setSpc target).view = s.view := rfl

@[simp] theorem setSpc_inputs (target : Word) (s : State) : (s.setSpc target).inputs = s.inputs := rfl

@[simp] theorem setSpc_outputs (target : Word) (s : State) : (s.setSpc target).outputs = s.outputs := rfl

/-! ### emit -/

@[simp] theorem emit_g (e : Event) (s : State) : (s.emit e).g = s.g := rfl

@[simp] theorem emit_o (e : Event) (s : State) : (s.emit e).o = s.o := rfl

@[simp] theorem emit_pc (e : Event) (s : State) : (s.emit e).pc = s.pc := rfl

@[simp] theorem emit_paused (e : Event) (s : State) : (s.emit e).paused = s.paused := rfl

@[simp] theorem emit_pausedAck (e : Event) (s : State) : (s.emit e).pausedAck = s.pausedAck := rfl

@[simp] theorem emit_irqState (e : Event) (s : State) : (s.emit e).irqState = s.irqState := rfl

@[simp] theorem emit_irqVec (e : Event) (s : State) : (s.emit e).irqVec = s.irqVec := rfl

@[simp] theorem emit_irqArg (e : Event) (s : State) : (s.emit e).irqArg = s.irqArg := rfl

@[simp] theorem emit_sg (e : Event) (s : State) : (s.emit e).sg = s.sg := rfl

@[simp] theorem emit_so (e : Event) (s : State) : (s.emit e).so = s.so := rfl

@[simp] theorem emit_spc (e : Event) (s : State) : (s.emit e).spc = s.spc := rfl

@[simp] theorem emit_mem (e : Event) (s : State) : (s.emit e).mem = s.mem := rfl

@[simp] theorem emit_brightness (e : Event) (s : State) : (s.emit e).brightness = s.brightness := rfl

@[simp] theorem emit_phase (e : Event) (s : State) : (s.emit e).phase = s.phase := rfl

@[simp] theorem emit_view (e : Event) (s : State) : (s.emit e).view = s.view := rfl

@[simp] theorem emit_inputs (e : Event) (s : State) : (s.emit e).inputs = s.inputs := rfl

@[simp] theorem emit_outputs (e : Event) (s : State) : (s.emit e).outputs = e :: s.outputs := rfl

/-! ### emitDiag -/

@[simp] theorem emitDiag_g (e : Event) (s : State) : (s.emitDiag e).g = s.g := rfl

@[simp] theorem emitDiag_o (e : Event) (s : State) : (s.emitDiag e).o = s.o := rfl

@[simp] theorem emitDiag_pc (e : Event) (s : State) : (s.emitDiag e).pc = s.pc := rfl

@[simp] theorem emitDiag_paused (e : Event) (s : State) : (s.emitDiag e).paused = s.paused := rfl

@[simp] theorem emitDiag_pausedAck (e : Event) (s : State) : (s.emitDiag e).pausedAck = s.pausedAck := rfl

@[simp] theorem emitDiag_irqState (e : Event) (s : State) : (s.emitDiag e).irqState = s.irqState := rfl

@[simp] theorem emitDiag_irqVec (e : Event) (s : State) : (s.emitDiag e).irqVec = s.irqVec := rfl

@[simp] theorem emitDiag_irqArg (e : Event) (s : State) : (s.emitDiag e).irqArg = s.irqArg := rfl

@[simp] theorem emitDiag_sg (e : Event) (s : State) : (s.emitDiag e).sg = s.sg := rfl

@[simp] theorem emitDiag_so (e : Event) (s : State) : (s.emitDiag e).so = s.so := rfl

@[simp] theorem emitDiag_spc (e : Event) (s : State) : (s.emitDiag e).spc = s.spc := rfl

@[simp] theorem emitDiag_mem (e : Event) (s : State) : (s.emitDiag e).mem = s.mem := rfl

@[simp] theorem emitDiag_brightness (e : Event) (s : State) : (s.emitDiag e).brightness = s.brightness := rfl

@[simp] theorem emitDiag_phase (e : Event) (s : State) : (s.emitDiag e).phase = s.phase := rfl

@[simp] theorem emitDiag_view (e : Event) (s : State) : (s.emitDiag e).view = s.view := rfl

@[simp] theorem emitDiag_inputs (e : Event) (s : State) : (s.emitDiag e).inputs = s.inputs := rfl

@[simp] theorem emitDiag_outputs (e : Event) (s : State) : (s.emitDiag e).outputs = if Config.diagEn then e :: s.outputs else s.outputs := rfl

/-! ### endInvocation -/

@[simp] theorem endInvocation_g (s : State) : (s.endInvocation).g = s.g := rfl

@[simp] theorem endInvocation_o (s : State) : (s.endInvocation).o = s.o := rfl

@[simp] theorem endInvocation_pc (s : State) : (s.endInvocation).pc = s.pc := rfl

@[simp] theorem endInvocation_paused (s : State) : (s.endInvocation).paused = s.paused := rfl

@[simp] theorem endInvocation_pausedAck (s : State) : (s.endInvocation).pausedAck = s.pausedAck := rfl

@[simp] theorem endInvocation_irqState (s : State) : (s.endInvocation).irqState = s.irqState := rfl

@[simp] theorem endInvocation_irqVec (s : State) : (s.endInvocation).irqVec = s.irqVec := rfl

@[simp] theorem endInvocation_irqArg (s : State) : (s.endInvocation).irqArg = s.irqArg := rfl

@[simp] theorem endInvocation_sg (s : State) : (s.endInvocation).sg = s.sg := rfl

@[simp] theorem endInvocation_so (s : State) : (s.endInvocation).so = s.so := rfl

@[simp] theorem endInvocation_spc (s : State) : (s.endInvocation).spc = s.spc := rfl

@[simp] theorem endInvocation_mem (s : State) : (s.endInvocation).mem = s.mem := rfl

@[simp] theorem endInvocation_brightness (s : State) : (s.endInvocation).brightness = s.brightness := rfl

@[simp] theorem endInvocation_phase (s : State) : (s.endInvocation).phase = .idle := rfl

@[simp] theorem endInvocation_view (s : State) : (s.endInvocation).view = s.view := rfl

@[simp] theorem endInvocation_inputs (s : State) : (s.endInvocation).inputs = s.inputs := rfl

@[simp] theorem endInvocation_outputs (s : State) : (s.endInvocation).outputs = s.outputs := rfl

/-! ### addOutput -/

@[simp] theorem addOutput_g (sel : Sel) (delta : Word) (s : State) : (s.addOutput sel delta).g = s.g := rfl

@[simp] theorem addOutput_o (sel : Sel) (delta : Word) (s : State) : (s.addOutput sel delta).o = s.o.writeWord sel (s.o.readWord sel + delta) := rfl

@[simp] theorem addOutput_pc (sel : Sel) (delta : Word) (s : State) : (s.addOutput sel delta).pc = s.pc := rfl

@[simp] theorem addOutput_paused (sel : Sel) (delta : Word) (s : State) : (s.addOutput sel delta).paused = s.paused := rfl

@[simp] theorem addOutput_pausedAck (sel : Sel) (delta : Word) (s : State) : (s.addOutput sel delta).pausedAck = s.pausedAck := rfl

@[simp] theorem addOutput_irqState (sel : Sel) (delta : Word) (s : State) : (s.addOutput sel delta).irqState = s.irqState := rfl

@[simp] theorem addOutput_irqVec (sel : Sel) (delta : Word) (s : State) : (s.addOutput sel delta).irqVec = s.irqVec := rfl

@[simp] theorem addOutput_irqArg (sel : Sel) (delta : Word) (s : State) : (s.addOutput sel delta).irqArg = s.irqArg := rfl

@[simp] theorem addOutput_sg (sel : Sel) (delta : Word) (s : State) : (s.addOutput sel delta).sg = s.sg := rfl

@[simp] theorem addOutput_so (sel : Sel) (delta : Word) (s : State) : (s.addOutput sel delta).so = s.so := rfl

@[simp] theorem addOutput_spc (sel : Sel) (delta : Word) (s : State) : (s.addOutput sel delta).spc = s.spc := rfl

@[simp] theorem addOutput_mem (sel : Sel) (delta : Word) (s : State) : (s.addOutput sel delta).mem = s.mem := rfl

@[simp] theorem addOutput_brightness (sel : Sel) (delta : Word) (s : State) : (s.addOutput sel delta).brightness = s.brightness := rfl

@[simp] theorem addOutput_phase (sel : Sel) (delta : Word) (s : State) : (s.addOutput sel delta).phase = s.phase := rfl

@[simp] theorem addOutput_view (sel : Sel) (delta : Word) (s : State) : (s.addOutput sel delta).view = s.view := rfl

@[simp] theorem addOutput_inputs (sel : Sel) (delta : Word) (s : State) : (s.addOutput sel delta).inputs = s.inputs := rfl

@[simp] theorem addOutput_outputs (sel : Sel) (delta : Word) (s : State) : (s.addOutput sel delta).outputs = s.outputs := rfl

/-! ### jumpBy -/

@[simp] theorem jumpBy_g (offset : Word) (s : State) : (s.jumpBy offset).g = s.g := rfl

@[simp] theorem jumpBy_o (offset : Word) (s : State) : (s.jumpBy offset).o = s.o := rfl

@[simp] theorem jumpBy_pc (offset : Word) (s : State) : (s.jumpBy offset).pc = s.pc + offset := rfl

@[simp] theorem jumpBy_paused (offset : Word) (s : State) : (s.jumpBy offset).paused = s.paused := rfl

@[simp] theorem jumpBy_pausedAck (offset : Word) (s : State) : (s.jumpBy offset).pausedAck = s.pausedAck := rfl

@[simp] theorem jumpBy_irqState (offset : Word) (s : State) : (s.jumpBy offset).irqState = s.irqState := rfl

@[simp] theorem jumpBy_irqVec (offset : Word) (s : State) : (s.jumpBy offset).irqVec = s.irqVec := rfl

@[simp] theorem jumpBy_irqArg (offset : Word) (s : State) : (s.jumpBy offset).irqArg = s.irqArg := rfl

@[simp] theorem jumpBy_sg (offset : Word) (s : State) : (s.jumpBy offset).sg = s.sg := rfl

@[simp] theorem jumpBy_so (offset : Word) (s : State) : (s.jumpBy offset).so = s.so := rfl

@[simp] theorem jumpBy_spc (offset : Word) (s : State) : (s.jumpBy offset).spc = s.spc := rfl

@[simp] theorem jumpBy_mem (offset : Word) (s : State) : (s.jumpBy offset).mem = s.mem := rfl

@[simp] theorem jumpBy_brightness (offset : Word) (s : State) : (s.jumpBy offset).brightness = s.brightness := rfl

@[simp] theorem jumpBy_phase (offset : Word) (s : State) : (s.jumpBy offset).phase = s.phase := rfl

@[simp] theorem jumpBy_view (offset : Word) (s : State) : (s.jumpBy offset).view = s.view := rfl

@[simp] theorem jumpBy_inputs (offset : Word) (s : State) : (s.jumpBy offset).inputs = s.inputs := rfl

@[simp] theorem jumpBy_outputs (offset : Word) (s : State) : (s.jumpBy offset).outputs = s.outputs := rfl

/-! ### jumpUnlessZero -/

@[simp] theorem jumpUnlessZero_g (sel : Sel) (offset : Word) (s : State) : (s.jumpUnlessZero sel offset).g = s.g := by
  unfold State.jumpUnlessZero; split <;> rfl

@[simp] theorem jumpUnlessZero_o (sel : Sel) (offset : Word) (s : State) : (s.jumpUnlessZero sel offset).o = s.o := by
  unfold State.jumpUnlessZero; split <;> rfl

@[simp] theorem jumpUnlessZero_paused (sel : Sel) (offset : Word) (s : State) : (s.jumpUnlessZero sel offset).paused = s.paused := by
  unfold State.jumpUnlessZero; split <;> rfl

@[simp] theorem jumpUnlessZero_pausedAck (sel : Sel) (offset : Word) (s : State) : (s.jumpUnlessZero sel offset).pausedAck = s.pausedAck := by
  unfold State.jumpUnlessZero; split <;> rfl

@[simp] theorem jumpUnlessZero_irqState (sel : Sel) (offset : Word) (s : State) : (s.jumpUnlessZero sel offset).irqState = s.irqState := by
  unfold State.jumpUnlessZero; split <;> rfl

@[simp] theorem jumpUnlessZero_irqVec (sel : Sel) (offset : Word) (s : State) : (s.jumpUnlessZero sel offset).irqVec = s.irqVec := by
  unfold State.jumpUnlessZero; split <;> rfl

@[simp] theorem jumpUnlessZero_irqArg (sel : Sel) (offset : Word) (s : State) : (s.jumpUnlessZero sel offset).irqArg = s.irqArg := by
  unfold State.jumpUnlessZero; split <;> rfl

@[simp] theorem jumpUnlessZero_sg (sel : Sel) (offset : Word) (s : State) : (s.jumpUnlessZero sel offset).sg = s.sg := by
  unfold State.jumpUnlessZero; split <;> rfl

@[simp] theorem jumpUnlessZero_so (sel : Sel) (offset : Word) (s : State) : (s.jumpUnlessZero sel offset).so = s.so := by
  unfold State.jumpUnlessZero; split <;> rfl

@[simp] theorem jumpUnlessZero_spc (sel : Sel) (offset : Word) (s : State) : (s.jumpUnlessZero sel offset).spc = s.spc := by
  unfold State.jumpUnlessZero; split <;> rfl

@[simp] theorem jumpUnlessZero_mem (sel : Sel) (offset : Word) (s : State) : (s.jumpUnlessZero sel offset).mem = s.mem := by
  unfold State.jumpUnlessZero; split <;> rfl

@[simp] theorem jumpUnlessZero_brightness (sel : Sel) (offset : Word) (s : State) : (s.jumpUnlessZero sel offset).brightness = s.brightness := by
  unfold State.jumpUnlessZero; split <;> rfl

@[simp] theorem jumpUnlessZero_phase (sel : Sel) (offset : Word) (s : State) : (s.jumpUnlessZero sel offset).phase = s.phase := by
  unfold State.jumpUnlessZero; split <;> rfl

@[simp] theorem jumpUnlessZero_view (sel : Sel) (offset : Word) (s : State) : (s.jumpUnlessZero sel offset).view = s.view := by
  unfold State.jumpUnlessZero; split <;> rfl

@[simp] theorem jumpUnlessZero_inputs (sel : Sel) (offset : Word) (s : State) : (s.jumpUnlessZero sel offset).inputs = s.inputs := by
  unfold State.jumpUnlessZero; split <;> rfl

@[simp] theorem jumpUnlessZero_outputs (sel : Sel) (offset : Word) (s : State) : (s.jumpUnlessZero sel offset).outputs = s.outputs := by
  unfold State.jumpUnlessZero; split <;> rfl

/-! ### decrementJump -/

@[simp] theorem decrementJump_g (sel : Sel) (offset : Word) (s : State) : (s.decrementJump sel offset).g = s.g.writeWord sel (s.g.readWord sel - 1) := by
  simp [State.decrementJump]

@[simp] theorem decrementJump_o (sel : Sel) (offset : Word) (s : State) : (s.decrementJump sel offset).o = s.o := by
  simp [State.decrementJump]

@[simp] theorem decrementJump_paused (sel : Sel) (offset : Word) (s : State) : (s.decrementJump sel offset).paused = s.paused := by
  simp [State.decrementJump]

@[simp] theorem decrementJump_pausedAck (sel : Sel) (offset : Word) (s : State) : (s.decrementJump sel offset).pausedAck = s.pausedAck := by
  simp [State.decrementJump]

@[simp] theorem decrementJump_irqState (sel : Sel) (offset : Word) (s : State) : (s.decrementJump sel offset).irqState = s.irqState := by
  simp [State.decrementJump]

@[simp] theorem decrementJump_irqVec (sel : Sel) (offset : Word) (s : State) : (s.decrementJump sel offset).irqVec = s.irqVec := by
  simp [State.decrementJump]

@[simp] theorem decrementJump_irqArg (sel : Sel) (offset : Word) (s : State) : (s.decrementJump sel offset).irqArg = s.irqArg := by
  simp [State.decrementJump]

@[simp] theorem decrementJump_sg (sel : Sel) (offset : Word) (s : State) : (s.decrementJump sel offset).sg = s.sg := by
  simp [State.decrementJump]

@[simp] theorem decrementJump_so (sel : Sel) (offset : Word) (s : State) : (s.decrementJump sel offset).so = s.so := by
  simp [State.decrementJump]

@[simp] theorem decrementJump_spc (sel : Sel) (offset : Word) (s : State) : (s.decrementJump sel offset).spc = s.spc := by
  simp [State.decrementJump]

@[simp] theorem decrementJump_mem (sel : Sel) (offset : Word) (s : State) : (s.decrementJump sel offset).mem = s.mem := by
  simp [State.decrementJump]

@[simp] theorem decrementJump_brightness (sel : Sel) (offset : Word) (s : State) : (s.decrementJump sel offset).brightness = s.brightness := by
  simp [State.decrementJump]

@[simp] theorem decrementJump_phase (sel : Sel) (offset : Word) (s : State) : (s.decrementJump sel offset).phase = s.phase := by
  simp [State.decrementJump]

@[simp] theorem decrementJump_view (sel : Sel) (offset : Word) (s : State) : (s.decrementJump sel offset).view = s.view := by
  simp [State.decrementJump]

@[simp] theorem decrementJump_inputs (sel : Sel) (offset : Word) (s : State) : (s.decrementJump sel offset).inputs = s.inputs := by
  simp [State.decrementJump]

@[simp] theorem decrementJump_outputs (sel : Sel) (offset : Word) (s : State) : (s.decrementJump sel offset).outputs = s.outputs := by
  simp [State.decrementJump]

/-! ### redirectReturn -/

@[simp] theorem redirectReturn_g (target : Word) (s : State) : (s.redirectReturn target).g = s.g := by
  unfold State.redirectReturn; split <;> rfl

@[simp] theorem redirectReturn_o (target : Word) (s : State) : (s.redirectReturn target).o = s.o := by
  unfold State.redirectReturn; split <;> rfl

@[simp] theorem redirectReturn_pc (target : Word) (s : State) : (s.redirectReturn target).pc = s.pc := by
  unfold State.redirectReturn; split <;> rfl

@[simp] theorem redirectReturn_paused (target : Word) (s : State) : (s.redirectReturn target).paused = s.paused := by
  unfold State.redirectReturn; split <;> rfl

@[simp] theorem redirectReturn_pausedAck (target : Word) (s : State) : (s.redirectReturn target).pausedAck = s.pausedAck := by
  unfold State.redirectReturn; split <;> rfl

@[simp] theorem redirectReturn_irqState (target : Word) (s : State) : (s.redirectReturn target).irqState = s.irqState := by
  unfold State.redirectReturn; split <;> rfl

@[simp] theorem redirectReturn_irqVec (target : Word) (s : State) : (s.redirectReturn target).irqVec = s.irqVec := by
  unfold State.redirectReturn; split <;> rfl

@[simp] theorem redirectReturn_irqArg (target : Word) (s : State) : (s.redirectReturn target).irqArg = s.irqArg := by
  unfold State.redirectReturn; split <;> rfl

@[simp] theorem redirectReturn_sg (target : Word) (s : State) : (s.redirectReturn target).sg = s.sg := by
  unfold State.redirectReturn; split <;> rfl

@[simp] theorem redirectReturn_so (target : Word) (s : State) : (s.redirectReturn target).so = s.so := by
  unfold State.redirectReturn; split <;> rfl

@[simp] theorem redirectReturn_mem (target : Word) (s : State) : (s.redirectReturn target).mem = s.mem := by
  unfold State.redirectReturn; split <;> rfl

@[simp] theorem redirectReturn_brightness (target : Word) (s : State) : (s.redirectReturn target).brightness = s.brightness := by
  unfold State.redirectReturn; split <;> rfl

@[simp] theorem redirectReturn_phase (target : Word) (s : State) : (s.redirectReturn target).phase = s.phase := by
  unfold State.redirectReturn; split <;> rfl

@[simp] theorem redirectReturn_view (target : Word) (s : State) : (s.redirectReturn target).view = s.view := by
  unfold State.redirectReturn; split <;> rfl

@[simp] theorem redirectReturn_inputs (target : Word) (s : State) : (s.redirectReturn target).inputs = s.inputs := by
  unfold State.redirectReturn; split <;> rfl

@[simp] theorem redirectReturn_outputs (target : Word) (s : State) : (s.redirectReturn target).outputs = s.outputs := by
  unfold State.redirectReturn; split <;> rfl

/-! ### requestInterrupt -/

@[simp] theorem requestInterrupt_g (vector : BitVec 2) (arg : Word) (s : State) : (s.requestInterrupt vector arg).g = s.g := by
  unfold State.requestInterrupt; split <;> rfl

@[simp] theorem requestInterrupt_o (vector : BitVec 2) (arg : Word) (s : State) : (s.requestInterrupt vector arg).o = s.o := by
  unfold State.requestInterrupt; split <;> rfl

@[simp] theorem requestInterrupt_pc (vector : BitVec 2) (arg : Word) (s : State) : (s.requestInterrupt vector arg).pc = s.pc := by
  unfold State.requestInterrupt; split <;> rfl

@[simp] theorem requestInterrupt_paused (vector : BitVec 2) (arg : Word) (s : State) : (s.requestInterrupt vector arg).paused = s.paused := by
  unfold State.requestInterrupt; split <;> rfl

@[simp] theorem requestInterrupt_pausedAck (vector : BitVec 2) (arg : Word) (s : State) : (s.requestInterrupt vector arg).pausedAck = s.pausedAck := by
  unfold State.requestInterrupt; split <;> rfl

@[simp] theorem requestInterrupt_sg (vector : BitVec 2) (arg : Word) (s : State) : (s.requestInterrupt vector arg).sg = s.sg := by
  unfold State.requestInterrupt; split <;> rfl

@[simp] theorem requestInterrupt_so (vector : BitVec 2) (arg : Word) (s : State) : (s.requestInterrupt vector arg).so = s.so := by
  unfold State.requestInterrupt; split <;> rfl

@[simp] theorem requestInterrupt_spc (vector : BitVec 2) (arg : Word) (s : State) : (s.requestInterrupt vector arg).spc = s.spc := by
  unfold State.requestInterrupt; split <;> rfl

@[simp] theorem requestInterrupt_mem (vector : BitVec 2) (arg : Word) (s : State) : (s.requestInterrupt vector arg).mem = s.mem := by
  unfold State.requestInterrupt; split <;> rfl

@[simp] theorem requestInterrupt_brightness (vector : BitVec 2) (arg : Word) (s : State) : (s.requestInterrupt vector arg).brightness = s.brightness := by
  unfold State.requestInterrupt; split <;> rfl

@[simp] theorem requestInterrupt_phase (vector : BitVec 2) (arg : Word) (s : State) : (s.requestInterrupt vector arg).phase = s.phase := by
  unfold State.requestInterrupt; split <;> rfl

@[simp] theorem requestInterrupt_view (vector : BitVec 2) (arg : Word) (s : State) : (s.requestInterrupt vector arg).view = s.view := by
  unfold State.requestInterrupt; split <;> rfl

@[simp] theorem requestInterrupt_inputs (vector : BitVec 2) (arg : Word) (s : State) : (s.requestInterrupt vector arg).inputs = s.inputs := by
  unfold State.requestInterrupt; split <;> rfl

@[simp] theorem requestInterrupt_outputs (vector : BitVec 2) (arg : Word) (s : State) : (s.requestInterrupt vector arg).outputs = s.outputs := by
  unfold State.requestInterrupt; split <;> rfl

/-! ### entryFound -/

@[simp] theorem entryFound_g (a : Nat) (s : State) : (s.entryFound a).g = s.g.writeWord 0 s.irqArg := rfl

@[simp] theorem entryFound_o (a : Nat) (s : State) : (s.entryFound a).o = s.o := rfl

@[simp] theorem entryFound_pc (a : Nat) (s : State) : (s.entryFound a).pc = BitVec.ofNat 16 a := rfl

@[simp] theorem entryFound_paused (a : Nat) (s : State) : (s.entryFound a).paused = s.paused := rfl

@[simp] theorem entryFound_pausedAck (a : Nat) (s : State) : (s.entryFound a).pausedAck = s.pausedAck := rfl

@[simp] theorem entryFound_irqState (a : Nat) (s : State) : (s.entryFound a).irqState = .ongoing := rfl

@[simp] theorem entryFound_irqVec (a : Nat) (s : State) : (s.entryFound a).irqVec = s.irqVec := rfl

@[simp] theorem entryFound_irqArg (a : Nat) (s : State) : (s.entryFound a).irqArg = s.irqArg := rfl

@[simp] theorem entryFound_sg (a : Nat) (s : State) : (s.entryFound a).sg = s.g := rfl

@[simp] theorem entryFound_so (a : Nat) (s : State) : (s.entryFound a).so = s.o := rfl

@[simp] theorem entryFound_spc (a : Nat) (s : State) : (s.entryFound a).spc = s.pc := rfl

@[simp] theorem entryFound_mem (a : Nat) (s : State) : (s.entryFound a).mem = s.mem := rfl

@[simp] theorem entryFound_brightness (a : Nat) (s : State) : (s.entryFound a).brightness = s.brightness := rfl

@[simp] theorem entryFound_phase (a : Nat) (s : State) : (s.entryFound a).phase = s.phase := rfl

@[simp] theorem entryFound_view (a : Nat) (s : State) : (s.entryFound a).view = s.view := rfl

@[simp] theorem entryFound_inputs (a : Nat) (s : State) : (s.entryFound a).inputs = s.inputs := rfl

@[simp] theorem entryFound_outputs (a : Nat) (s : State) : (s.entryFound a).outputs = s.outputs := rfl

/-! ### entryNotFound -/

@[simp] theorem entryNotFound_g (s : State) : (s.entryNotFound).g = s.g := rfl

@[simp] theorem entryNotFound_o (s : State) : (s.entryNotFound).o = s.o := rfl

@[simp] theorem entryNotFound_pc (s : State) : (s.entryNotFound).pc = s.pc := rfl

@[simp] theorem entryNotFound_paused (s : State) : (s.entryNotFound).paused = s.paused := rfl

@[simp] theorem entryNotFound_pausedAck (s : State) : (s.entryNotFound).pausedAck = s.pausedAck := rfl

@[simp] theorem entryNotFound_irqState (s : State) : (s.entryNotFound).irqState = .none := rfl

@[simp] theorem entryNotFound_irqVec (s : State) : (s.entryNotFound).irqVec = s.irqVec := rfl

@[simp] theorem entryNotFound_irqArg (s : State) : (s.entryNotFound).irqArg = s.irqArg := rfl

@[simp] theorem entryNotFound_sg (s : State) : (s.entryNotFound).sg = s.sg := rfl

@[simp] theorem entryNotFound_so (s : State) : (s.entryNotFound).so = s.so := rfl

@[simp] theorem entryNotFound_spc (s : State) : (s.entryNotFound).spc = s.spc := rfl

@[simp] theorem entryNotFound_mem (s : State) : (s.entryNotFound).mem = s.mem := rfl

@[simp] theorem entryNotFound_brightness (s : State) : (s.entryNotFound).brightness = s.brightness := rfl

@[simp] theorem entryNotFound_phase (s : State) : (s.entryNotFound).phase = s.phase := rfl

@[simp] theorem entryNotFound_view (s : State) : (s.entryNotFound).view = s.view := rfl

@[simp] theorem entryNotFound_inputs (s : State) : (s.entryNotFound).inputs = s.inputs := rfl

@[simp] theorem entryNotFound_outputs (s : State) : (s.entryNotFound).outputs = if Config.diagEn then .vectorNotFound :: s.outputs else s.outputs := rfl

/-! ### interruptEntry -/

@[simp] theorem interruptEntry_o (s : State) : (s.interruptEntry).o = s.o := by
  unfold State.interruptEntry; split <;> rfl

@[simp] theorem interruptEntry_paused (s : State) : (s.interruptEntry).paused = s.paused := by
  unfold State.interruptEntry; split <;> rfl

@[simp] theorem interruptEntry_pausedAck (s : State) : (s.interruptEntry).pausedAck = s.pausedAck := by
  unfold State.interruptEntry; split <;> rfl

@[simp] theorem interruptEntry_irqVec (s : State) : (s.interruptEntry).irqVec = s.irqVec := by
  unfold State.interruptEntry; split <;> rfl

@[simp] theorem interruptEntry_irqArg (s : State) : (s.interruptEntry).irqArg = s.irqArg := by
  unfold State.interruptEntry; split <;> rfl

@[simp] theorem interruptEntry_mem (s : State) : (s.interruptEntry).mem = s.mem := by
  unfold State.interruptEntry; split <;> rfl

@[simp] theorem interruptEntry_brightness (s : State) : (s.interruptEntry).brightness = s.brightness := by
  unfold State.interruptEntry; split <;> rfl

@[simp] theorem interruptEntry_phase (s : State) : (s.interruptEntry).phase = s.phase := by
  unfold State.interruptEntry; split <;> rfl

@[simp] theorem interruptEntry_view (s : State) : (s.interruptEntry).view = s.view := by
  unfold State.interruptEntry; split <;> rfl

@[simp] theorem interruptEntry_inputs (s : State) : (s.interruptEntry).inputs = s.inputs := by
  unfold State.interruptEntry; split <;> rfl

/-! ### interruptReturn -/

@[simp] theorem interruptReturn_g (s : State) : (s.interruptReturn).g = s.sg := rfl

@[simp] theorem interruptReturn_o (s : State) : (s.interruptReturn).o = s.so := rfl

@[simp] theorem interruptReturn_pc (s : State) : (s.interruptReturn).pc = s.spc := rfl

@[simp] theorem interruptReturn_paused (s : State) : (s.interruptReturn).paused = s.paused := rfl

@[simp] theorem interruptReturn_pausedAck (s : State) : (s.interruptReturn).pausedAck = s.pausedAck := rfl

@[simp] theorem interruptReturn_irqState (s : State) : (s.interruptReturn).irqState = .none := rfl

@[simp] theorem interruptReturn_irqVec (s : State) : (s.interruptReturn).irqVec = s.irqVec := rfl

@[simp] theorem interruptReturn_irqArg (s : State) : (s.interruptReturn).irqArg = s.irqArg := rfl

@[simp] theorem interruptReturn_sg (s : State) : (s.interruptReturn).sg = s.sg := rfl

@[simp] theorem interruptReturn_so (s : State) : (s.interruptReturn).so = s.so := rfl

@[simp] theorem interruptReturn_spc (s : State) : (s.interruptReturn).spc = s.spc := rfl

@[simp] theorem interruptReturn_mem (s : State) : (s.interruptReturn).mem = s.mem := rfl

@[simp] theorem interruptReturn_brightness (s : State) : (s.interruptReturn).brightness = s.brightness := rfl

@[simp] theorem interruptReturn_phase (s : State) : (s.interruptReturn).phase = s.phase := rfl

@[simp] theorem interruptReturn_view (s : State) : (s.interruptReturn).view = s.view := rfl

@[simp] theorem interruptReturn_inputs (s : State) : (s.interruptReturn).inputs = s.inputs := rfl

@[simp] theorem interruptReturn_outputs (s : State) : (s.interruptReturn).outputs = s.outputs := rfl

/-! ### enterPending -/

@[simp] theorem enterPending_o (s : State) : (s.enterPending).o = s.o := by
  unfold State.enterPending; split <;> simp

@[simp] theorem enterPending_paused (s : State) : (s.enterPending).paused = s.paused := by
  unfold State.enterPending; split <;> simp

@[simp] theorem enterPending_pausedAck (s : State) : (s.enterPending).pausedAck = false := by
  unfold State.enterPending; split <;> simp

@[simp] theorem enterPending_irqVec (s : State) : (s.enterPending).irqVec = s.irqVec := by
  unfold State.enterPending; split <;> simp

@[simp] theorem enterPending_irqArg (s : State) : (s.enterPending).irqArg = s.irqArg := by
  unfold State.enterPending; split <;> simp

@[simp] theorem enterPending_mem (s : State) : (s.enterPending).mem = s.mem := by
  unfold State.enterPending; split <;> simp

@[simp] theorem enterPending_brightness (s : State) : (s.enterPending).brightness = s.brightness := by
  unfold State.enterPending; split <;> simp

@[simp] theorem enterPending_phase (s : State) : (s.enterPending).phase = s.phase := by
  unfold State.enterPending; split <;> simp

@[simp] theorem enterPending_view (s : State) : (s.enterPending).view = s.view := by
  unfold State.enterPending; split <;> simp

@[simp] theorem enterPending_inputs (s : State) : (s.enterPending).inputs = s.inputs := by
  unfold State.enterPending; split <;> simp

/-! ### beginSingle -/

@[simp] theorem beginSingle_o (s : State) : (s.beginSingle).o = s.o := by
  simp [State.beginSingle]

@[simp] theorem beginSingle_paused (s : State) : (s.beginSingle).paused = s.paused := by
  simp [State.beginSingle]

@[simp] theorem beginSingle_pausedAck (s : State) : (s.beginSingle).pausedAck = false := by
  simp [State.beginSingle]

@[simp] theorem beginSingle_irqVec (s : State) : (s.beginSingle).irqVec = s.irqVec := by
  simp [State.beginSingle]

@[simp] theorem beginSingle_irqArg (s : State) : (s.beginSingle).irqArg = s.irqArg := by
  simp [State.beginSingle]

@[simp] theorem beginSingle_mem (s : State) : (s.beginSingle).mem = s.mem := by
  simp [State.beginSingle]

@[simp] theorem beginSingle_brightness (s : State) : (s.beginSingle).brightness = s.brightness := by
  simp [State.beginSingle]

@[simp] theorem beginSingle_phase (s : State) : (s.beginSingle).phase = .single := by
  simp [State.beginSingle]

@[simp] theorem beginSingle_view (s : State) : (s.beginSingle).view = s.view := by
  simp [State.beginSingle]

@[simp] theorem beginSingle_inputs (s : State) : (s.beginSingle).inputs = s.inputs := by
  simp [State.beginSingle]

/-! ### beginRun -/

@[simp] theorem beginRun_o (s : State) : (s.beginRun).o = s.o := by
  unfold State.beginRun; split <;> simp [*]

@[simp] theorem beginRun_paused (s : State) : (s.beginRun).paused = s.paused := by
  unfold State.beginRun; split <;> simp [*]

@[simp] theorem beginRun_pausedAck (s : State) : (s.beginRun).pausedAck = s.paused := by
  unfold State.beginRun; split <;> simp [*]

@[simp] theorem beginRun_irqVec (s : State) : (s.beginRun).irqVec = s.irqVec := by
  unfold State.beginRun; split <;> simp [*]

@[simp] theorem beginRun_irqArg (s : State) : (s.beginRun).irqArg = s.irqArg := by
  unfold State.beginRun; split <;> simp [*]

@[simp] theorem beginRun_mem (s : State) : (s.beginRun).mem = s.mem := by
  unfold State.beginRun; split <;> simp [*]

@[simp] theorem beginRun_brightness (s : State) : (s.beginRun).brightness = s.brightness := by
  unfold State.beginRun; split <;> simp [*]

@[simp] theorem beginRun_view (s : State) : (s.beginRun).view = s.view := by
  unfold State.beginRun; split <;> simp [*]

@[simp] theorem beginRun_inputs (s : State) : (s.beginRun).inputs = s.inputs := by
  unfold State.beginRun; split <;> simp [*]

/-! ### endSingle -/

@[simp] theorem endSingle_g (s : State) : (s.endSingle).g = s.g := rfl

@[simp] theorem endSingle_o (s : State) : (s.endSingle).o = s.o := rfl

@[simp] theorem endSingle_pc (s : State) : (s.endSingle).pc = s.pc := rfl

@[simp] theorem endSingle_paused (s : State) : (s.endSingle).paused = s.paused := rfl

@[simp] theorem endSingle_pausedAck (s : State) : (s.endSingle).pausedAck = s.pausedAck := rfl

@[simp] theorem endSingle_irqState (s : State) : (s.endSingle).irqState = s.irqState := rfl

@[simp] theorem endSingle_irqVec (s : State) : (s.endSingle).irqVec = s.irqVec := rfl

@[simp] theorem endSingle_irqArg (s : State) : (s.endSingle).irqArg = s.irqArg := rfl

@[simp] theorem endSingle_sg (s : State) : (s.endSingle).sg = s.sg := rfl

@[simp] theorem endSingle_so (s : State) : (s.endSingle).so = s.so := rfl

@[simp] theorem endSingle_spc (s : State) : (s.endSingle).spc = s.spc := rfl

@[simp] theorem endSingle_mem (s : State) : (s.endSingle).mem = s.mem := rfl

@[simp] theorem endSingle_brightness (s : State) : (s.endSingle).brightness = s.brightness := rfl

@[simp] theorem endSingle_phase (s : State) : (s.endSingle).phase = .idle := rfl

@[simp] theorem endSingle_view (s : State) : (s.endSingle).view = s.view := rfl

@[simp] theorem endSingle_inputs (s : State) : (s.endSingle).inputs = s.inputs := rfl

@[simp] theorem endSingle_outputs (s : State) : (s.endSingle).outputs = if Config.diagEn then .snapshot s.irqState s.g s.o :: s.outputs else s.outputs := rfl

/-! ### setPause -/

@[simp] theorem setPause_g (value : Bool) (s : State) : (s.setPause value).g = s.g := rfl

@[simp] theorem setPause_o (value : Bool) (s : State) : (s.setPause value).o = s.o := rfl

@[simp] theorem setPause_pc (value : Bool) (s : State) : (s.setPause value).pc = s.pc := rfl

@[simp] theorem setPause_paused (value : Bool) (s : State) : (s.setPause value).paused = value := rfl

@[simp] theorem setPause_pausedAck (value : Bool) (s : State) : (s.setPause value).pausedAck = s.pausedAck := rfl

@[simp] theorem setPause_irqState (value : Bool) (s : State) : (s.setPause value).irqState = s.irqState := rfl

@[simp] theorem setPause_irqVec (value : Bool) (s : State) : (s.setPause value).irqVec = s.irqVec := rfl

@[simp] theorem setPause_irqArg (value : Bool) (s : State) : (s.setPause value).irqArg = s.irqArg := rfl

@[simp] theorem setPause_sg (value : Bool) (s : State) : (s.setPause value).sg = s.sg := rfl

@[simp] theorem setPause_so (value : Bool) (s : State) : (s.setPause value).so = s.so := rfl

@[simp] theorem setPause_spc (value : Bool) (s : State) : (s.setPause value).spc = s.spc := rfl

@[simp] theorem setPause_mem (value : Bool) (s : State) : (s.setPause value).mem = s.mem := rfl

@[simp] theorem setPause_brightness (value : Bool) (s : State) : (s.setPause value).brightness = s.brightness := rfl

@[simp] theorem setPause_phase (value : Bool) (s : State) : (s.setPause value).phase = s.phase := rfl

@[simp] theorem setPause_view (value : Bool) (s : State) : (s.setPause value).view = if value then s.view else .unparked := rfl

@[simp] theorem setPause_inputs (value : Bool) (s : State) : (s.setPause value).inputs = s.inputs := rfl

@[simp] theorem setPause_outputs (value : Bool) (s : State) : (s.setPause value).outputs = s.outputs := rfl

/-! ### readAck -/

@[simp] theorem readAck_g (s : State) : (s.readAck).g = s.g := rfl

@[simp] theorem readAck_o (s : State) : (s.readAck).o = s.o := rfl

@[simp] theorem readAck_pc (s : State) : (s.readAck).pc = s.pc := rfl

@[simp] theorem readAck_paused (s : State) : (s.readAck).paused = s.paused := rfl

@[simp] theorem readAck_pausedAck (s : State) : (s.readAck).pausedAck = s.pausedAck := rfl

@[simp] theorem readAck_irqState (s : State) : (s.readAck).irqState = s.irqState := rfl

@[simp] theorem readAck_irqVec (s : State) : (s.readAck).irqVec = s.irqVec := rfl

@[simp] theorem readAck_irqArg (s : State) : (s.readAck).irqArg = s.irqArg := rfl

@[simp] theorem readAck_sg (s : State) : (s.readAck).sg = s.sg := rfl

@[simp] theorem readAck_so (s : State) : (s.readAck).so = s.so := rfl

@[simp] theorem readAck_spc (s : State) : (s.readAck).spc = s.spc := rfl

@[simp] theorem readAck_mem (s : State) : (s.readAck).mem = s.mem := rfl

@[simp] theorem readAck_brightness (s : State) : (s.readAck).brightness = s.brightness := rfl

@[simp] theorem readAck_phase (s : State) : (s.readAck).phase = s.phase := rfl

@[simp] theorem readAck_view (s : State) : (s.readAck).view = if s.paused && s.pausedAck then .parked else s.view := rfl

@[simp] theorem readAck_inputs (s : State) : (s.readAck).inputs = s.inputs := rfl

@[simp] theorem readAck_outputs (s : State) : (s.readAck).outputs = .ackRead s.pausedAck :: s.outputs := rfl

/-! ### doReset -/

@[simp] theorem doReset_g (image : Config.Image) (s : State) : (s.doReset image).g = .zero := rfl

@[simp] theorem doReset_o (image : Config.Image) (s : State) : (s.doReset image).o = .zero := rfl

@[simp] theorem doReset_pc (image : Config.Image) (s : State) : (s.doReset image).pc = 0#16 := rfl

@[simp] theorem doReset_paused (image : Config.Image) (s : State) : (s.doReset image).paused = false := rfl

@[simp] theorem doReset_pausedAck (image : Config.Image) (s : State) : (s.doReset image).pausedAck = false := rfl

@[simp] theorem doReset_irqState (image : Config.Image) (s : State) : (s.doReset image).irqState = .none := rfl

@[simp] theorem doReset_irqVec (image : Config.Image) (s : State) : (s.doReset image).irqVec = 0#2 := rfl

@[simp] theorem doReset_irqArg (image : Config.Image) (s : State) : (s.doReset image).irqArg = 0#16 := rfl

@[simp] theorem doReset_sg (image : Config.Image) (s : State) : (s.doReset image).sg = .zero := rfl

@[simp] theorem doReset_so (image : Config.Image) (s : State) : (s.doReset image).so = .zero := rfl

@[simp] theorem doReset_spc (image : Config.Image) (s : State) : (s.doReset image).spc = 0#16 := rfl

@[simp] theorem doReset_mem (image : Config.Image) (s : State) : (s.doReset image).mem = Memory.ofImage image := rfl

@[simp] theorem doReset_brightness (image : Config.Image) (s : State) : (s.doReset image).brightness = s.brightness := rfl

@[simp] theorem doReset_phase (image : Config.Image) (s : State) : (s.doReset image).phase = .idle := rfl

@[simp] theorem doReset_view (image : Config.Image) (s : State) : (s.doReset image).view = .unparked := rfl

@[simp] theorem doReset_inputs (image : Config.Image) (s : State) : (s.doReset image).inputs = s.inputs := rfl

@[simp] theorem doReset_outputs (image : Config.Image) (s : State) : (s.doReset image).outputs = s.outputs := rfl

end Sys2Proof.Machine
end

