-- ==== Sys2Proof/Laws/Exec.lean ====
section
/-! SUPPORT. What an executed instruction can do: the one lemma that later proofs cite instead of unfolding `exec`. -/

namespace Sys2Proof.Machine

/-- An instruction runs or, being reserved, stops after its leading byte; it is never refused. -/
theorem exec_cases (i : Instr) (s : State) :
    (i.wellFormed = true ∧ ∃ t, exec i s = .next t) ∨
      (i.wellFormed = false ∧ exec i s = .fault (.reservedOpcode (s.advance 1))) := by
  cases i <;> first
    | exact .inl ⟨rfl, _, rfl⟩
    | exact .inr ⟨rfl, rfl⟩
    | (refine .inl ⟨rfl, ?_⟩
       show ∃ t, execIret s = .next t
       unfold execIret
       split <;> exact ⟨_, rfl⟩)

/-- The return from interrupt, all cases. -/
theorem execIret_next {s t : State} (h : execIret s = .next t) :
    (s.irqState = .ongoing ∧ t = (s.advance 1).interruptReturn) ∨
      (s.irqState ≠ .ongoing ∧ t = s.advance 1) := by
  unfold execIret at h
  cases hi : s.irqState <;> simp only [hi] at h <;> cases h <;> simp

/-- No instruction writes program memory, `pausedAck`, the request, the saved banks, brightness, the control
context's knowledge or the coming actions. -/
theorem exec_next_keeps {i : Instr} {s t : State} (h : exec i s = .next t) :
    t.mem = s.mem ∧ t.pausedAck = s.pausedAck ∧ t.irqVec = s.irqVec ∧ t.irqArg = s.irqArg ∧ t.sg = s.sg ∧
      t.so = s.so ∧ t.brightness = s.brightness ∧ t.view = s.view ∧ t.inputs = s.inputs := by
  cases i <;> first
    | (cases h; done)
    | (cases h; exact ⟨rfl, rfl, rfl, rfl, rfl, rfl, rfl, rfl, rfl⟩)
    | (cases h; simp)
    | (rcases execIret_next h with ⟨-, rfl⟩ | ⟨-, rfl⟩ <;> simp)

/-- Only IRET changes the interrupt state, and only from ONGOING to NONE. -/
theorem exec_next_irqState {i : Instr} {s t : State} (h : exec i s = .next t) :
    t.irqState = s.irqState ∨ (i = .iret ∧ s.irqState = .ongoing ∧ t.irqState = .none) := by
  cases i <;> first
    | (cases h; done)
    | (cases h; simp)
    | (rcases execIret_next h with ⟨hs, rfl⟩ | ⟨-, rfl⟩ <;> simp [*])

/-- An instruction leaves the phase as it is or ends the invocation. -/
theorem exec_next_phase {i : Instr} {s t : State} (h : exec i s = .next t) :
    t.phase = s.phase ∨ t.phase = .idle := by
  cases i <;> first
    | (cases h; done)
    | (cases h; simp)
    | (rcases execIret_next h with ⟨hs, rfl⟩ | ⟨-, rfl⟩ <;> simp)

/-- An instruction leaves `paused` as it is or sets it. -/
theorem exec_next_paused {i : Instr} {s t : State} (h : exec i s = .next t) :
    t.paused = s.paused ∨ t.paused = true := by
  cases i <;> first
    | (cases h; done)
    | (cases h; simp)
    | (rcases execIret_next h with ⟨hs, rfl⟩ | ⟨-, rfl⟩ <;> simp)

end Sys2Proof.Machine
end

