-- ==== Sys2Proof/Laws/Fetch.lean ====
section
/-! SUPPORT. What the engine's fetch reads and where it stops. -/

namespace Sys2Proof.Machine

@[simp] theorem advance_zero (s : State) : s.advance 0 = s := by
  simp [State.advance]

theorem advance_advance (m n : Nat) (s : State) : (s.advance m).advance n = s.advance (m + n) := by
  simp [State.advance, BitVec.add_assoc, BitVec.ofNat_add]

theorem fetch8_none {s : State} (h : 512 ≤ s.pc.toNat) : s.fetch8 = none := by
  simp [State.fetch8, Config.progCells, h]

theorem fetch8_some {s : State} (h : s.pc.toNat < 512) :
    s.fetch8 = some (Memory.read s.mem s.pc.toNat, s.advance 1) := by
  simp [State.fetch8, Config.progCells, Nat.not_le.2 h]

/-- `n` fetches read the cells from `pc` up to the end of memory and advance `pc` over them. -/
theorem fetchBytes_eq (n : Nat) (s : State) :
    State.fetchBytes n s =
      ((List.range (min n (512 - s.pc.toNat))).map (fun k => Memory.read s.mem (s.pc.toNat + k)),
        s.advance (min n (512 - s.pc.toNat))) := by
  induction n generalizing s with
  | zero => simp [State.fetchBytes]
  | succ n ih =>
    unfold State.fetchBytes
    by_cases h : s.pc.toNat < 512
    · have hpc : (s.advance 1).pc.toNat = s.pc.toNat + 1 := by
        simp only [advance_pc, BitVec.toNat_add, BitVec.toNat_ofNat]; omega
      have hmin : min (n + 1) (512 - s.pc.toNat) = min n (512 - (s.pc.toNat + 1)) + 1 := by omega
      simp only [fetch8_some h, ih, hpc, hmin, List.range_succ_eq_map, List.map_cons, List.map_map,
        advance_mem, advance_advance, Nat.add_zero, Prod.mk.injEq, List.cons.injEq, true_and]
      refine ⟨List.map_congr_left fun k _ => ?_, by rw [Nat.add_comm]⟩
      simp [Nat.add_assoc, Nat.add_comm 1 k]
    · simp [fetch8_none (Nat.not_lt.1 h), show 512 - s.pc.toNat = 0 by omega]

/-- The bytes an instruction can consist of. -/
theorem codeBytes_eq (s : State) :
    s.codeBytes =
      (List.range (min 3 (512 - s.pc.toNat))).map (fun k => Memory.read s.mem (s.pc.toNat + k)) := by
  simp [State.codeBytes, fetchBytes_eq]

theorem codeBytes_length (s : State) : s.codeBytes.length = min 3 (512 - s.pc.toNat) := by
  simp [codeBytes_eq]

/-- Inside the memory the first byte is the leading byte. -/
theorem codeBytes_cons {s : State} (h : s.pc.toNat < 512) :
    ∃ tail, s.codeBytes = Memory.read s.mem s.pc.toNat :: tail ∧
      tail.length = min 2 (511 - s.pc.toNat) := by
  have hmin : min 3 (512 - s.pc.toNat) = min 2 (511 - s.pc.toNat) + 1 := by omega
  refine ⟨(List.range (min 2 (511 - s.pc.toNat))).map
    (fun k => Memory.read s.mem (s.pc.toNat + (k + 1))), ?_, by simp⟩
  rw [codeBytes_eq, hmin, List.range_succ_eq_map, List.map_cons, Nat.add_zero, List.map_map]
  rfl

@[simp] theorem codeBytes_setInputs (rest : List Action) (s : State) :
    (s.setInputs rest).codeBytes = s.codeBytes := by
  simp [codeBytes_eq]

/-- What was fetched was decoded from the bytes at `pc`. -/
theorem decode_of_fetchInstr {s : State} {i : Instr} (h : s.fetchInstr = .ok i) :
    ∃ rest, decode s.codeBytes = .ok (i, rest) := by
  unfold State.fetchInstr at h
  cases hd : decode s.codeBytes with
  | ok p => rw [hd] at h; cases h; exact ⟨p.2, rfl⟩
  | error e => rw [hd] at h; cases h

/-- An instruction that is decoded from the bytes at `pc` is fetched. -/
theorem fetchInstr_of_decode {s : State} {i : Instr} {rest : List Byte}
    (h : decode s.codeBytes = .ok (i, rest)) : s.fetchInstr = .ok i := by
  simp [State.fetchInstr, h]

/-- A fetch at `pc >= 512` stops with the state as it was (R58). -/
theorem fetchInstr_outside {s : State} (h : 512 ≤ s.pc.toNat) :
    s.fetchInstr = .error (.fetchOutOfRange s) := by
  have hc : s.codeBytes = [] := by
    apply List.length_eq_zero_iff.1
    rw [codeBytes_length]; omega
  simp [State.fetchInstr, hc, decode, State.stoppedFetch]

/-- A fetch either gives an instruction or stops as the model fault FetchOutOfRange. -/
theorem fetchInstr_cases (s : State) :
    (∃ i rest, decode s.codeBytes = .ok (i, rest) ∧ s.fetchInstr = .ok i) ∨
      ∃ t, s.fetchInstr = .error (.fetchOutOfRange t) := by
  unfold State.fetchInstr
  cases h : decode s.codeBytes with
  | ok p => exact .inl ⟨p.1, p.2, rfl, rfl⟩
  | error e => exact .inr ⟨_, rfl⟩

/-- An operand that runs past the memory stops with `pc` at 512, after what precedes the operand fetch (R58). -/
theorem fetchInstr_truncated {s : State} (h : s.pc.toNat < 512)
    (hl : 512 < s.pc.toNat + 1 + consumedOperands (Memory.read s.mem s.pc.toNat)) :
    s.fetchInstr = .error (.fetchOutOfRange
      (State.beforeOperands (Memory.read s.mem s.pc.toNat) { s with pc := 512#16 })) := by
  obtain ⟨tail, ht, hlen⟩ := codeBytes_cons h
  have h2 := consumedOperands_le_two (Memory.read s.mem s.pc.toNat)
  have hadv : s.advance (min 3 (512 - s.pc.toNat)) = { s with pc := 512#16 } := by
    unfold State.advance
    congr 1
    apply BitVec.eq_of_toNat_eq
    simp only [BitVec.toNat_add, BitVec.toNat_ofNat]
    omega
  have hd := decode_of_short (Memory.read s.mem s.pc.toNat) tail (by omega)
  simp [State.fetchInstr, ht, hd, State.stoppedFetch, fetchBytes_eq, hadv]

end Sys2Proof.Machine
end

