-- ==== Sys2Proof/Laws/Memory.lean ====
section
/-! SUPPORT. Program memory: reads after writes, and every operation keeps the canonical form. -/

namespace Sys2Proof.Machine

theorem Memory.wfFrom_cons {lo k : Nat} {v : Byte} {m : Memory} :
    Memory.wfFrom lo ((k, v) :: m) = true ↔
      lo ≤ k ∧ k < 512 ∧ v ≠ Config.unlistedCell ∧ Memory.wfFrom (k + 1) m = true := by
  simp only [Memory.wfFrom, Bool.and_eq_true, decide_eq_true_eq, bne_iff_ne, ne_eq, and_assoc]
  exact Iff.rfl

theorem Memory.wfFrom_mono {lo lo' : Nat} {m : Memory} (h : lo' ≤ lo) (hm : Memory.wfFrom lo m = true) :
    Memory.wfFrom lo' m = true := by
  cases m with
  | nil => rfl
  | cons c m => rw [Memory.wfFrom_cons] at hm ⊢; exact ⟨h.trans hm.1, hm.2⟩

/-- Below its first entry a canonical memory is unlisted. -/
theorem Memory.read_below {lo a : Nat} {m : Memory} (hm : Memory.wfFrom lo m = true) (ha : a < lo) :
    Memory.read m a = Config.unlistedCell := by
  induction m generalizing lo with
  | nil => rfl
  | cons c m ih =>
    obtain ⟨k, v⟩ := c
    rw [Memory.wfFrom_cons] at hm
    simp [Memory.read, show a ≠ k by omega, ih hm.2.2.2 (by omega)]

/-- A canonical memory lists no cell outside the 512. -/
theorem Memory.read_above {lo a : Nat} {m : Memory} (hm : Memory.wfFrom lo m = true) (ha : 512 ≤ a) :
    Memory.read m a = Config.unlistedCell := by
  induction m generalizing lo with
  | nil => rfl
  | cons c m ih =>
    obtain ⟨k, v⟩ := c
    rw [Memory.wfFrom_cons] at hm
    simp [Memory.read, show a ≠ k by omega, ih hm.2.2.2]

theorem Memory.read_consCell_same {lo a : Nat} {v : Byte} {m : Memory}
    (hm : Memory.wfFrom lo m = true) (ha : a < lo) : Memory.read (Memory.consCell a v m) a = v := by
  unfold Memory.consCell
  split
  · rw [Memory.read_below hm ha, ‹v = _›]
  · simp [Memory.read]

theorem Memory.read_consCell_other {a b : Nat} {v : Byte} {m : Memory} (h : b ≠ a) :
    Memory.read (Memory.consCell a v m) b = Memory.read m b := by
  unfold Memory.consCell
  split
  · rfl
  · simp [Memory.read, h]

theorem Memory.wfFrom_consCell {lo a : Nat} {v : Byte} {m : Memory} (hm : Memory.wfFrom (a + 1) m = true)
    (hlo : lo ≤ a) (ha : a < 512) : Memory.wfFrom lo (Memory.consCell a v m) = true := by
  unfold Memory.consCell
  split
  · exact Memory.wfFrom_mono (by omega) hm
  · exact Memory.wfFrom_cons.2 ⟨hlo, ha, ‹_›, hm⟩

theorem Memory.wfFrom_write {lo a : Nat} {v : Byte} {m : Memory} (hm : Memory.wfFrom lo m = true)
    (hlo : lo ≤ a) (ha : a < 512) : Memory.wfFrom lo (Memory.write m a v) = true := by
  induction m generalizing lo with
  | nil => exact Memory.wfFrom_consCell rfl hlo ha
  | cons c m ih =>
    obtain ⟨k, w⟩ := c
    have h := Memory.wfFrom_cons.1 hm
    unfold Memory.write
    split
    · exact Memory.wfFrom_consCell (Memory.wfFrom_cons.2 ⟨by omega, h.2⟩) hlo ha
    · split
      · exact Memory.wfFrom_consCell (by rw [‹a = k›]; exact h.2.2.2) hlo ha
      · exact Memory.wfFrom_cons.2 ⟨h.1, h.2.1, h.2.2.1, ih h.2.2.2 (by omega)⟩

/-- A write of a cell keeps the canonical form. -/
theorem Memory.wf_write {a : Nat} {v : Byte} {m : Memory} (hm : Memory.wf m = true) (ha : a < 512) :
    Memory.wf (Memory.write m a v) = true :=
  Memory.wfFrom_write hm (Nat.zero_le a) ha

theorem Memory.read_write_same_from {lo a : Nat} {v : Byte} {m : Memory} (hm : Memory.wfFrom lo m = true) :
    Memory.read (Memory.write m a v) a = v := by
  induction m generalizing lo with
  | nil => exact Memory.read_consCell_same (lo := a + 1) rfl (by omega)
  | cons c m ih =>
    obtain ⟨k, w⟩ := c
    have h := Memory.wfFrom_cons.1 hm
    unfold Memory.write
    split
    · exact Memory.read_consCell_same (lo := k) (Memory.wfFrom_cons.2 ⟨le_rfl, h.2⟩) ‹_›
    · split
      · exact Memory.read_consCell_same h.2.2.2 (by omega)
      · simp [Memory.read, ‹¬a = k›, ih h.2.2.2]

/-- A read of the cell just written gives the value written. -/
theorem Memory.read_write_same {a : Nat} {v : Byte} {m : Memory} (hm : Memory.wf m = true) :
    Memory.read (Memory.write m a v) a = v :=
  Memory.read_write_same_from hm

/-- A write leaves every other cell alone. -/
theorem Memory.read_write_other {a b : Nat} {v : Byte} {m : Memory} (h : b ≠ a) :
    Memory.read (Memory.write m a v) b = Memory.read m b := by
  induction m with
  | nil => exact Memory.read_consCell_other h
  | cons c m ih =>
    obtain ⟨k, w⟩ := c
    unfold Memory.write
    split
    · exact Memory.read_consCell_other h
    · split
      · rw [Memory.read_consCell_other h]; simp [Memory.read, show b ≠ k by omega]
      · simp [Memory.read, ih]

theorem Memory.wfFrom_ofBytes {a : Nat} {bs : List Byte} (h : a + bs.length ≤ 512) :
    Memory.wfFrom a (Memory.ofBytes a bs) = true := by
  induction bs generalizing a with
  | nil => rfl
  | cons b bs ih =>
    simp only [List.length_cons] at h
    exact Memory.wfFrom_consCell (ih (by omega)) le_rfl (by omega)

/-- An image has all the cells. -/
theorem Image.length_toList (image : Config.Image) : image.toList.length = 512 := Vector.length_toList

/-- An image gives a memory in canonical form. -/
theorem Memory.wf_ofImage (image : Config.Image) : Memory.wf (Memory.ofImage image) = true :=
  Memory.wfFrom_ofBytes (by simp only [Image.length_toList, Nat.zero_add, le_refl])

theorem Memory.read_ofBytes {a : Nat} {bs : List Byte} (h : a + bs.length ≤ 512) (k : Nat) :
    Memory.read (Memory.ofBytes a bs) (a + k) = bs.getD k Config.unlistedCell := by
  induction bs generalizing a k with
  | nil => simp [Memory.ofBytes, Memory.read]
  | cons b bs ih =>
    simp only [List.length_cons] at h
    cases k with
    | zero =>
      exact Memory.read_consCell_same (Memory.wfFrom_ofBytes (a := a + 1) (by omega)) (by omega)
    | succ k =>
      rw [Memory.ofBytes, Memory.read_consCell_other (by omega), show a + (k + 1) = a + 1 + k by omega,
        ih (by omega)]
      rfl

/-- Every cell reads as the image gives it. -/
theorem Memory.read_ofImage (image : Config.Image) {a : Nat} (h : a < Config.progCells) :
    Memory.read (Memory.ofImage image) a = image[a] := by
  have := Memory.read_ofBytes (a := 0) (bs := image.toList) 
    (by simp only [Image.length_toList, Nat.zero_add, le_refl]) a
  simpa [Memory.ofImage, h] using this

theorem Memory.eq_of_read_eq_from {lo : Nat} {m n : Memory} (hm : Memory.wfFrom lo m = true)
    (hn : Memory.wfFrom lo n = true) (h : ∀ a, Memory.read m a = Memory.read n a) : m = n := by
  induction m generalizing lo n with
  | nil =>
    cases n with
    | nil => rfl
    | cons c n =>
      obtain ⟨k, v⟩ := c
      have hk := h k
      simp only [Memory.read, if_true] at hk
      exact absurd hk.symm (Memory.wfFrom_cons.1 hn).2.2.1
  | cons c m ih =>
    obtain ⟨k, v⟩ := c
    have hm' := Memory.wfFrom_cons.1 hm
    cases n with
    | nil =>
      have hk := h k
      simp only [Memory.read, if_true] at hk
      exact absurd hk hm'.2.2.1
    | cons d n =>
      obtain ⟨l, w⟩ := d
      have hn' := Memory.wfFrom_cons.1 hn
      have hkl : k = l := by
        rcases Nat.lt_trichotomy k l with hlt | heq | hgt
        · have hk := h k
          simp only [Memory.read, if_true, show k ≠ l by omega, if_false,
            Memory.read_below hn'.2.2.2 (show k < l + 1 by omega)] at hk
          exact absurd hk hm'.2.2.1
        · exact heq
        · have hl := h l
          simp only [Memory.read, if_true, show l ≠ k by omega, if_false,
            Memory.read_below hm'.2.2.2 (show l < k + 1 by omega)] at hl
          exact absurd hl.symm hn'.2.2.1
      subst hkl
      have hv : v = w := by simpa [Memory.read] using h k
      subst hv
      congr 1
      refine ih hm'.2.2.2 hn'.2.2.2 fun a => ?_
      by_cases hak : a = k
      · rw [hak, Memory.read_below hm'.2.2.2 (by omega), Memory.read_below hn'.2.2.2 (by omega)]
      · simpa [Memory.read, hak] using h a

/-- In canonical form equal contents are equal lists. -/
theorem Memory.eq_of_read_eq {m n : Memory} (hm : Memory.wf m = true) (hn : Memory.wf n = true)
    (h : ∀ a, Memory.read m a = Memory.read n a) : m = n :=
  Memory.eq_of_read_eq_from hm hn h

/-- Writing bytes that fit keeps the canonical form. -/
theorem Memory.wf_writeBytes {m : Memory} {a : Nat} {bs : List Byte} (hm : Memory.wf m = true)
    (h : a + bs.length ≤ 512) : Memory.wf (Memory.writeBytes m a bs) = true := by
  induction bs generalizing m a with
  | nil => exact hm
  | cons b bs ih =>
    simp only [List.length_cons] at h
    exact ih (Memory.wf_write hm (by omega)) (by omega)

end Sys2Proof.Machine
end

