-- ==== Sys2Proof/Laws/Engine.lean ====
section
/-! SUPPORT. What one step of the machine can be: the inversion lemmas of the step and of the actions. -/

namespace Sys2Proof.Machine

/-- Running one instruction is fetching one and executing it. -/
theorem runInstr_next {s t : State} (h : s.runInstr = .next t) :
    ∃ i, s.fetchInstr = .ok i ∧ exec i s = .next t := by
  unfold State.runInstr at h
  cases hf : s.fetchInstr with
  | ok i => rw [hf] at h; exact ⟨i, rfl, h⟩
  | error f => rw [hf] at h; cases h

/-- The one instruction of a single-step call, and its return. -/
theorem runSingle_next {s t : State} (h : s.runSingle = .next t) :
    ∃ i u, s.fetchInstr = .ok i ∧ exec i s = .next u ∧ t = u.endSingle := by
  unfold State.runSingle at h
  cases hr : s.runInstr with
  | next u =>
    rw [hr] at h
    obtain ⟨i, hf, he⟩ := runInstr_next hr
    cases h
    exact ⟨i, u, hf, he, rfl⟩
  | fault f => rw [hr] at h; cases h
  | refused r => rw [hr] at h; cases h

/-- Every way in which a step answers a next state. -/
theorem step_next_cases {s t : State} (h : step s = .next t) :
    (s.phase = .single ∧ ∃ i u, s.fetchInstr = .ok i ∧ exec i s = .next u ∧ t = u.endSingle) ∨
    (s.phase = .run ∧ s.inputs = [] ∧ ∃ i, s.fetchInstr = .ok i ∧ exec i s = .next t) ∨
    (s.phase = .idle ∧ s.inputs = [] ∧ t = s.beginRun) ∨
    (s.phase ≠ .single ∧ ∃ a rest, s.inputs = a :: rest ∧
      State.perform a (s.setInputs rest) = .next t) := by
  unfold step State.move at h
  cases hp : s.phase with
  | single =>
    simp only [hp] at h
    exact .inl ⟨rfl, runSingle_next h⟩
  | noProgram =>
    cases hi : s.inputs with
    | nil => simp only [hp, hi, State.defaultMove] at h; cases h
    | cons a rest =>
      simp only [hp, hi] at h
      exact .inr (.inr (.inr ⟨by simp, a, rest, rfl, h⟩))
  | idle =>
    cases hi : s.inputs with
    | nil =>
      simp only [hp, hi, State.defaultMove, State.tick] at h
      cases h
      exact .inr (.inr (.inl ⟨rfl, rfl, rfl⟩))
    | cons a rest =>
      simp only [hp, hi] at h
      exact .inr (.inr (.inr ⟨by simp, a, rest, rfl, h⟩))
  | run =>
    cases hi : s.inputs with
    | nil =>
      simp only [hp, hi, State.defaultMove, State.engineTurn] at h
      exact .inr (.inl ⟨rfl, rfl, runInstr_next h⟩)
    | cons a rest =>
      simp only [hp, hi] at h
      exact .inr (.inr (.inr ⟨by simp, a, rest, rfl, h⟩))

/-- What each action does when it answers a next state, and in which phase and view it can. -/
theorem perform_next_cases {a : Action} {s t : State} (h : State.perform a s = .next t) :
    match a with
    | .tick => s.phase = .idle ∧ t = s.beginRun
    | .engine => (s.phase = .idle ∧ t = s) ∨
        (s.phase = .run ∧ ∃ i, s.fetchInstr = .ok i ∧ exec i s = .next t) ∨
        (s.phase = .single ∧ ∃ i u, s.fetchInstr = .ok i ∧ exec i s = .next u ∧ t = u.endSingle)
    | .singleStep => s.phase = .idle ∧ s.view ≠ .unparked ∧ t = s.beginSingle.setView .stepped
    | .requestInterrupt vector arg => s.phase ≠ .noProgram ∧ t = s.requestInterrupt vector arg
    | .setPause value => s.phase ≠ .noProgram ∧ t = s.setPause value
    | .readAck => s.phase ≠ .noProgram ∧ t = s.readAck
    | .reset image => (s.phase = .idle ∨ s.phase = .noProgram) ∧ t = s.doReset image
    | .setBrightness value => t = s.setBrightness value
    | .inspect => s.phase = .idle ∧ s.view ≠ .unparked ∧ t = s.emit (.inspected s.g s.o s.pc s.irqState)
    | .writeGeneral i value => s.phase = .idle ∧ s.view = .parked ∧ t = s.setGeneral i value
    | .writeGeneralByte j value => s.phase = .idle ∧ s.view = .parked ∧ t = s.setGeneralByte j value
    | .writeOutput i value => s.phase = .idle ∧ s.view = .parked ∧ t = s.setOutput i value
    | .writeOutputByte j value => s.phase = .idle ∧ s.view = .parked ∧ t = s.setOutputByte j value
    | .writeCell addr value => s.phase = .idle ∧ s.view = .parked ∧ t = s.setCell addr value := by
  cases a with
  | tick =>
    cases hp : s.phase <;> simp only [State.perform, State.tick, hp] at h <;> cases h
    exact ⟨rfl, rfl⟩
  | engine =>
    cases hp : s.phase <;> simp only [State.perform, State.engineTurn, hp] at h
    · cases h
    · cases h; exact .inl ⟨rfl, rfl⟩
    · exact .inr (.inl ⟨rfl, runInstr_next h⟩)
    · exact .inr (.inr ⟨rfl, runSingle_next h⟩)
  | singleStep =>
    cases hp : s.phase <;> cases hv : s.view <;> simp only [State.perform, State.singleStep, hp, hv] at h <;>
      cases h <;> simp
  | requestInterrupt | setPause | readAck =>
    cases hp : s.phase <;> simp only [State.perform, State.afterReset, hp] at h <;> cases h <;> simp
  | reset image =>
    cases hp : s.phase <;> simp only [State.perform, State.resetAction, hp] at h
    · cases h; exact ⟨.inr rfl, rfl⟩
    · cases h; exact ⟨.inl rfl, rfl⟩
    · cases h
    · cases h
  | setBrightness => cases h; rfl
  | inspect =>
    cases hp : s.phase <;> cases hv : s.view <;> simp only [State.perform, State.inspect, hp, hv] at h <;>
      cases h <;> simp
  | writeGeneral | writeGeneralByte | writeOutput | writeOutputByte | writeCell =>
    cases hp : s.phase <;> cases hv : s.view <;> simp only [State.perform, State.parkedWrite, hp, hv] at h <;>
      cases h <;> simp

/-- A run of a machine whose first step answers a next state goes on from it. -/
theorem run_succ_of_next {M : Host.Core} {n : Nat} {s t : M.State} (h : M.step s = .next t) :
    M.run (n + 1) s = M.run n t := by
  simp [Host.Core.run, h]

/-- A step of a burst with no listed action is one instruction. -/
theorem step_run {s : State} (hp : s.phase = .run) (hi : s.inputs = []) : step s = s.runInstr := by
  simp [step, State.move, hp, hi, State.defaultMove, State.engineTurn]

/-- An idle engine with no listed action is ticked. -/
theorem step_idle {s : State} (hp : s.phase = .idle) (hi : s.inputs = []) : step s = .next s.beginRun := by
  simp [step, State.move, hp, hi, State.defaultMove, State.tick]

/-- A run-mode invocation of a paused engine. -/
theorem beginRun_of_paused {s : State} (h : s.paused = true) : s.beginRun = s.setAck true := by
  simp [State.beginRun, h]

/-- A run-mode invocation of an engine that is not paused. -/
theorem beginRun_of_not_paused {s : State} (h : s.paused = false) :
    s.beginRun = s.enterPending.setPhase .run := by
  simp [State.beginRun, h]

theorem enterPending_of_pending {s : State} (h : s.irqState = .pending) :
    s.enterPending = (s.setAck false).interruptEntry := by
  simp [State.enterPending, h]

theorem enterPending_of_not_pending {s : State} (h : s.irqState ≠ .pending) :
    s.enterPending = s.setAck false := by
  cases hs : s.irqState <;> simp_all [State.enterPending]

/-- A single-step call of a parked control context on an idle engine. -/
theorem step_singleStep {s : State} {rest : List Action} (hp : s.phase = .idle)
    (hi : s.inputs = .singleStep :: rest) (hv : s.view ≠ .unparked) :
    step s = .next ((s.setInputs rest).beginSingle.setView .stepped) := by
  simp only [step, State.move, hp, hi, State.perform, State.singleStep, setInputs_phase, setInputs_view]
  cases h : s.view <;> simp_all

/-- The step of a run-mode invocation, by default or listed. -/
theorem step_runInvocationNext {s : State} {rest : List Action} (h : RunInvocationNext s rest) :
    step s = .next (s.setInputs rest).beginRun := by
  obtain ⟨hp, ⟨hi, rfl⟩ | hi⟩ := h
  · rw [step_idle hp hi, State.setInputs, ← hi]
  · simp [step, State.move, hp, hi, State.perform, State.tick]

/-- The step of a single-step call. -/
theorem step_singleStepNext {s : State} {rest : List Action} (h : SingleStepNext s rest) :
    step s = .next ((s.setInputs rest).beginSingle.setView .stepped) :=
  step_singleStep h.1 h.2.2 h.2.1

/-- A step of a single-step call in progress is its one instruction. -/
theorem step_single {s : State} (hp : s.phase = .single) : step s = s.runSingle := by
  simp [step, State.move, hp]

/-- A step outside a single-step call performs the next listed action. -/
theorem step_action {s : State} {a : Action} {rest : List Action} (hp : s.phase ≠ .single)
    (hi : s.inputs = a :: rest) : step s = State.perform a (s.setInputs rest) := by
  cases h : s.phase <;> simp_all [step, State.move]

/-- The reset state's memory is in canonical form. -/
theorem reset_mem_wf : Memory.wf State.reset.mem = true := rfl

end Sys2Proof.Machine
end

