-- ==== Sys2Proof/Laws/Operands.lean ====
section
/-! SUPPORT. The operand forms as numbers: extensions, slices and the duty product. -/

namespace Sys2Proof.Machine

@[simp] theorem hi8_wordOf (lo hi : Byte) : hi8 (wordOf lo hi) = hi := by
  apply BitVec.eq_of_getLsbD_eq
  intro i h
  unfold hi8 wordOf
  rw [BitVec.getLsbD_extractLsb', BitVec.getLsbD_append]
  simp [h]

@[simp] theorem lo8_wordOf (lo hi : Byte) : lo8 (wordOf lo hi) = lo := by
  apply BitVec.eq_of_getLsbD_eq
  intro i h
  unfold lo8 wordOf
  rw [BitVec.getLsbD_extractLsb', BitVec.getLsbD_append]
  simp [h]

@[simp] theorem toNat_zext16 (v : Byte) : (zext16 v).toNat = v.toNat := by
  simp only [zext16, BitVec.toNat_setWidth]
  omega

@[simp] theorem toInt_sext16 (v : Byte) : (sext16 v).toInt = v.toInt := by
  simp [sext16, BitVec.toInt_signExtend_of_le]

theorem toNat_hi8 (v : Word) : (hi8 v).toNat = v.toNat / 256 := by
  simp only [hi8, BitVec.extractLsb'_toNat, Nat.shiftRight_eq_div_pow]
  omega

theorem toNat_outByteForm (v : Byte) : (outByteForm v).toNat = v.toNat * 256 := by
  have h : outByteForm v = (v ++ 0x00#8 : BitVec (8 + 8)) := rfl
  rw [h, BitVec.toNat_append]
  simp [Nat.shiftLeft_eq]

/-- The product of two bytes is exact in 16 bits, so the duty is the floor of the product over 256. -/
theorem toNat_duty (output brightness : Word) :
    (duty output brightness).toNat = (hi8 output).toNat * (hi8 brightness).toNat / 256 := by
  have h1 := (hi8 output).isLt
  have h2 := (hi8 brightness).isLt
  have hp : (hi8 output).toNat * (hi8 brightness).toNat ≤ 255 * 255 :=
    Nat.mul_le_mul (by omega) (by omega)
  simp only [duty, BitVec.toNat_setWidth, BitVec.toNat_ushiftRight, BitVec.toNat_mul,
    Nat.shiftRight_eq_div_pow]
  rw [Nat.mod_eq_of_lt (show (hi8 output).toNat < 2 ^ 16 by omega),
    Nat.mod_eq_of_lt (show (hi8 brightness).toNat < 2 ^ 16 by omega),
    Nat.mod_eq_of_lt (show (hi8 output).toNat * (hi8 brightness).toNat < 2 ^ 16 by omega)]
  omega

end Sys2Proof.Machine
end

