-- ==== Sys2Proof/Laws/PerInstr.lean ====
section
/-! SUPPORT. The statement per instruction: the shape of its encoding (R70, R71, R76). -/

namespace Sys2Proof.Laws.EncodeShape

/-- The encoding of an instruction is a leading byte that carries its width flag, its selector and its opcode, with
bit 6 zero, and then the operand bytes that the width rule gives a valid opcode; a reserved one has none. -/
def Statement (i : Instr) : Prop :=
  ∃ lead ops, encode i = lead :: ops ∧ leadW lead = i.width ∧ leadSel lead = i.sel ∧
    leadOpcode lead = i.opcode ∧ lead.getLsbD 6 = false ∧ ops.length = consumedOperands lead ∧
    i.cells = (encode i).length

theorem leadByte_bit6 (w : Bool) (sel : Sel) (o : Opcode) : (leadByte w sel o).getLsbD 6 = false := by
  revert w sel; cases o <;> decide

theorem consumedOperands_leadByte (w : Bool) (sel : Sel) (o : Opcode) :
    consumedOperands (leadByte w sel o) = if o.valid then operandLen o w else 0 := by
  simp [consumedOperands, leadOperandLen]

/-- The statement follows from the number of operand bytes. -/
theorem of_length {i : Instr}
    (h : (operandBytes i).length = if i.opcode.valid then operandLen i.opcode i.width else 0) : Statement i :=
  ⟨_, _, rfl, leadW_leadByte _ _ _, leadSel_leadByte _ _ _, leadOpcode_leadByte _ _ _, leadByte_bit6 _ _ _,
    by rw [consumedOperands_leadByte]; exact h, by simp [Instr.cells, encode, Nat.add_comm]⟩

theorem stop : Statement (.stop) := of_length rfl

theorem setregB (sel : Sel) (imm : Byte) : Statement (.setregB sel imm) := of_length rfl

theorem setregW (sel : Sel) (imm : Word) : Statement (.setregW sel imm) := of_length rfl

theorem setoutB (sel : Sel) (imm : Byte) : Statement (.setoutB sel imm) := of_length rfl

theorem setoutW (sel : Sel) (imm : Word) : Statement (.setoutW sel imm) := of_length rfl

theorem modoutB (sel : Sel) (imm : Byte) : Statement (.modoutB sel imm) := of_length rfl

theorem modoutW (sel : Sel) (imm : Word) : Statement (.modoutW sel imm) := of_length rfl

theorem commit : Statement (.commit) := of_length rfl

theorem wait : Statement (.wait) := of_length rfl

theorem drjnzB (sel : Sel) (offset : Byte) : Statement (.drjnzB sel offset) := of_length rfl

theorem drjnzW (sel : Sel) (offset : Word) : Statement (.drjnzW sel offset) := of_length rfl

theorem jmp (offset : Byte) : Statement (.jmp offset) := of_length rfl

theorem jmpabsB (addr : Byte) : Statement (.jmpabsB addr) := of_length rfl

theorem jmpabsW (addr : Word) : Statement (.jmpabsW addr) := of_length rfl

theorem ivec (vector : Sel) : Statement (.ivec vector) := of_length rfl

theorem isetpcB (addr : Byte) : Statement (.isetpcB addr) := of_length rfl

theorem isetpcW (addr : Word) : Statement (.isetpcW addr) := of_length rfl

theorem iret : Statement (.iret) := of_length rfl

theorem reservedC : Statement (.reservedC) := of_length rfl

theorem reservedD : Statement (.reservedD) := of_length rfl

theorem reservedE : Statement (.reservedE) := of_length rfl

theorem reservedF : Statement (.reservedF) := of_length rfl

end Sys2Proof.Laws.EncodeShape
end

