-- ==== Sys2Proof/Laws/Scan.lean ====
section
/-! SUPPORT. The vector scan: its one step, and that 512 stops are always enough. -/

namespace Sys2Proof.Machine

theorem vectorScan_outside {m : Memory} {marker : Byte} {fuel a : Nat} (h : 512 ≤ a) :
    vectorScan m marker fuel a = none := by
  cases fuel with
  | zero => rfl
  | succ n => simp [vectorScan, Config.progCells, h]

theorem vectorScan_match {m : Memory} {marker : Byte} {fuel a : Nat} (ha : a < 512)
    (hm : Memory.read m a = marker) : vectorScan m marker (fuel + 1) a = some a := by
  simp [vectorScan, Config.progCells, Nat.not_le.2 ha, hm]

theorem vectorScan_skip {m : Memory} {marker : Byte} {fuel a : Nat} (ha : a < 512)
    (hm : Memory.read m a ≠ marker) :
    vectorScan m marker (fuel + 1) a =
      vectorScan m marker fuel (a + 1 + leadOperandLen (Memory.read m a)) := by
  simp [vectorScan, Config.progCells, Nat.not_le.2 ha, hm]

/-- Once the fuel reaches to the end of memory, more of it changes nothing (log 24). -/
theorem vectorScan_fuel {m : Memory} {marker : Byte} {fuel a : Nat} (h : 512 ≤ a + fuel) (k : Nat) :
    vectorScan m marker (fuel + k) a = vectorScan m marker fuel a := by
  induction fuel generalizing a with
  | zero => rw [vectorScan_outside (by omega), vectorScan_outside (by omega)]
  | succ n ih =>
    rw [Nat.add_right_comm]
    by_cases ha : a < 512
    · by_cases hm : Memory.read m a = marker
      · rw [vectorScan_match ha hm, vectorScan_match ha hm]
      · rw [vectorScan_skip ha hm, vectorScan_skip ha hm, ih (by omega)]
    · rw [vectorScan_outside (by omega), vectorScan_outside (by omega)]

end Sys2Proof.Machine
end

