-- ==== Sys2Proof/Tests/Slice0.lean ====
section
/-! SUPPORT. The model's own tests. Every expected value is taken from spec/95_test_vectors.md (its section is named)
or written out by hand from the rule that is named. A theorem `witness_<Statement>` shows a concrete state and operands
that meet the hypotheses of that statement, one conjunct or theorem for each clause. -/

namespace Sys2Proof.Tests

open Sys2Proof.Machine

/-! ### Helpers -/

/-- A run-mode burst in progress at `pc`, with `cells` in memory from `pc` on. -/
def running (pc : Nat) (cells : List Byte) : State :=
  { State.reset with mem := Memory.ofBytes pc cells, pc := BitVec.ofNat 16 pc, phase := .run }

/-- A single-step call in progress at `pc`, made by a parked control context. -/
def stepping (pc : Nat) (cells : List Byte) : State :=
  { running pc cells with phase := .single, view := .stepped, paused := true }

/-- An idle engine with `cells` from address 0 on, and one listed action. -/
def idleWith (a : Action) (cells : List Byte) : State :=
  { State.reset with mem := Memory.ofBytes 0 cells, inputs := [a] }

/-- The same, with the control context parked. -/
def parkedWith (a : Action) (cells : List Byte) : State :=
  { idleWith a cells with paused := true, pausedAck := true, view := .parked }

/-- An image with WAIT in each of its 512 cells. -/
def fullImage : Config.Image := Vector.replicate 512 0x05

/-- One step answers a next state that `p` accepts. -/
def after (s : State) (p : State → Bool) : Bool :=
  match step s with
  | .next t => p t
  | .fault _ | .refused _ => false

/-- One step answers a fault that `p` accepts. -/
def faultsWith (s : State) (p : Fault → Bool) : Bool :=
  match step s with
  | .fault f => p f
  | .next _ | .refused _ => false

/-- One step is refused for `r`. -/
def refusedFor (s : State) (r : Refusal) : Bool :=
  match step s with
  | .refused q => decide (q = r)
  | .next _ | .fault _ => false

/-- `FetchOutOfRange` in a stopped state that `p` accepts. -/
def outOfRange (p : State → Bool) : Fault → Bool
  | .fetchOutOfRange t => p t
  | .reservedOpcode _ => false

/-- `ReservedOpcode` in a stopped state that `p` accepts. -/
def reservedStop (p : State → Bool) : Fault → Bool
  | .reservedOpcode t => p t
  | .fetchOutOfRange _ => false

/-- The decoder reads `i` from the bytes and leaves `rest`. -/
def decodesTo (bytes : List Byte) (i : Instr) (rest : List Byte) : Bool :=
  match decode bytes with
  | .ok (j, r) => decide (j = i ∧ r = rest)
  | .error _ => false

/-! ### WellFormed: the one check refuses each reserved opcode and nothing else (R80, R204) -/

theorem test_wellFormed_refuses_reserved :
    Instr.reservedC.wellFormed = false ∧ Instr.reservedD.wellFormed = false ∧
    Instr.reservedE.wellFormed = false ∧ Instr.reservedF.wellFormed = false := by decide

theorem test_wellFormed_accepts : (Instr.isetpcW 0xFFFF).wellFormed = true ∧ Instr.stop.wellFormed = true := by
  decide

/-! ### Decode: every constructor, from words written out by the encodings of 30 and 41 to 44 -/

theorem test_decode_stop : decodesTo [0x00] .stop [] = true ∧ decodesTo [0x80] .stop [] = true := by decide
theorem test_decode_setregB : decodesTo [0x31, 0xFF] (.setregB 3 0xFF) [] = true := by decide
theorem test_decode_setregW : decodesTo [0x81, 0x88, 0x13] (.setregW 0 5000) [] = true := by decide
theorem test_decode_setregW_bit6 : decodesTo [0xC1, 0x34, 0x12] (.setregW 0 0x1234) [] = true := by decide
theorem test_decode_setoutB : decodesTo [0x32, 0x10] (.setoutB 3 0x10) [] = true := by decide
theorem test_decode_setoutW : decodesTo [0xB2, 0x34, 0x12] (.setoutW 3 0x1234) [] = true := by decide
theorem test_decode_modoutB : decodesTo [0x23, 0x05] (.modoutB 2 5) [] = true := by decide
theorem test_decode_modoutW : decodesTo [0x83, 0xF3, 0xFF] (.modoutW 0 0xFFF3) [] = true := by decide
theorem test_decode_commit : decodesTo [0x84, 0x05] .commit [0x05] = true := by decide
theorem test_decode_wait : decodesTo [0x75] .wait [] = true ∧ decodesTo [0x45] .wait [] = true := by decide
theorem test_decode_drjnzB : decodesTo [0x16, 0xFC] (.drjnzB 1 0xFC) [] = true := by decide
theorem test_decode_drjnzW : decodesTo [0x86, 0xFD, 0xFE] (.drjnzW 0 0xFEFD) [] = true := by decide
theorem test_decode_jmp : decodesTo [0x87, 0x03, 0x8A] (.jmp 3) [0x8A] = true := by decide
theorem test_decode_jmpabsB : decodesTo [0x08, 0x07] (.jmpabsB 7) [] = true := by decide
theorem test_decode_jmpabsW : decodesTo [0x88, 0xFF, 0x01] (.jmpabsW 511) [] = true := by decide
theorem test_decode_ivec : decodesTo [0x39] (.ivec 3) [] = true ∧ decodesTo [0x89] (.ivec 0) [] = true := by decide
theorem test_decode_isetpcB : decodesTo [0x0A, 0xFF] (.isetpcB 0xFF) [] = true := by decide
theorem test_decode_isetpcW : decodesTo [0x8A, 0x03, 0x00] (.isetpcW 3) [] = true := by decide
theorem test_decode_iret : decodesTo [0x0B] .iret [] = true := by decide
theorem test_decode_reserved : decodesTo [0x0C, 0x01] .reservedC [0x01] = true ∧
    decodesTo [0x0D] .reservedD [] = true ∧ decodesTo [0x4E] .reservedE [] = true ∧
    decodesTo [0xFF] .reservedF [] = true := by decide

/-- R58: a list that ends before the operand does is no instruction. -/
theorem test_decode_rejects :
    decode [] = .error .noBytes ∧ decode [0x81, 0x34] = .error (.operandMissing 0x81) ∧
    decode [0x07] = .error (.operandMissing 0x07) := ⟨rfl, rfl, rfl⟩

/-- 95 §2.1: the operand length of each opcode in both widths. -/
theorem test_width_rule_W0 : [0x00, 0x01, 0x32, 0x03, 0x04, 0x05, 0x06, 0x07, 0x08, 0x09, 0x0A, 0x0B, 0x0C, 0x0F].map
    leadOperandLen = [0, 1, 1, 1, 0, 0, 1, 1, 1, 0, 1, 0, 1, 1] := by decide

theorem test_width_rule_W1 : [0x80, 0x81, 0xB2, 0x83, 0x84, 0x86, 0x87, 0x88, 0x89, 0x8A, 0x8C, 0x8F].map
    leadOperandLen = [0, 2, 2, 2, 0, 2, 1, 2, 0, 2, 2, 2] := by decide

/-- The table's numbering: the second cell is bits 15 to 8, and a row without its operand bits reads operands of 0. -/
theorem test_decodeTableWord : decodeTableWord 24 0x123491 = some (.setregW 1 0x1234) ∧
    decodeTableWord 8 0x86 = some (.drjnzW 0 0) ∧ decodeTableWord 8 0x0F = some .reservedF := by decide

/-! ### One step of each instruction, 95 §2.2 to §2.5 -/

theorem test_setregB_zero_extends :
    after { running 0 [0x01, 0x12] with g := ⟨0xFFFF, 0, 0, 0⟩ } (fun t => t.g = ⟨0x12, 0, 0, 0⟩ ∧ t.pc = 2) := by
  decide
theorem test_setregW : after (running 0 [0x91, 0x34, 0x12]) (fun t => t.g = ⟨0, 0x1234, 0, 0⟩ ∧ t.pc = 3) := by
  decide
theorem test_setoutB_clears_low :
    after { running 0 [0x02, 0x10] with o := ⟨0x12FF, 0, 0, 0⟩ } (fun t => t.o.w0 = 0x1000 ∧ t.pc = 2) := by decide
theorem test_setoutW :
    after { running 0 [0x82, 0x01, 0x00] with o := ⟨0x12FF, 0, 0, 0⟩ } (fun t => t.o.w0 = 1 ∧ t.pc = 3) := by decide
theorem test_modoutB_wraps_below :
    after { running 0 [0x03, 0xF3] with o := ⟨5, 0, 0, 0⟩ } (fun t => t.o.w0 = 0xFFF8 ∧ t.pc = 2) := by decide
theorem test_modoutB_carries :
    after { running 0 [0x03, 0x01] with o := ⟨0x00FF, 0, 0, 0⟩ } (fun t => t.o.w0 = 0x0100) := by decide
theorem test_modoutW :
    after { running 0 [0x83, 0xF3, 0xFF] with o := ⟨0x1234, 0, 0, 0⟩ } (fun t => t.o.w0 = 0x1227 ∧ t.pc = 3) := by
  decide
theorem test_stop : after (running 0 [0x00])
    (fun t => t.paused ∧ t.pausedAck = false ∧ t.pc = 1 ∧ t.phase = .idle) := by decide
theorem test_stop_single : after { stepping 0 [0x00] with pausedAck := false }
    (fun t => t.paused ∧ t.pausedAck = false ∧ t.pc = 1 ∧ t.phase = .idle) := by decide
theorem test_wait : after (running 0 [0x75]) (fun t => t.pc = 1 ∧ t.phase = .idle ∧ t.paused = false) := by decide
theorem test_commit_duties :
    after { running 0 [0x04] with o := ⟨0x80FF, 0xFF00, 0x1000, 0x1234⟩, brightness := 0x80AA }
      (fun t => t.outputs = [.commit 0x40 0x7F 0x08] ∧ t.pc = 1 ∧ t.phase = .idle) := by decide
theorem test_commit_full_brightness :
    after { running 0 [0x04] with o := ⟨0xFF00, 0, 0x0100, 0⟩, brightness := 0xFFFF }
      (fun t => t.outputs = [.commit 0xFE 0 0]) := by decide
theorem test_drjnzB_taken_from_zero :
    after (running 6 [0x06, 0xFC]) (fun t => t.g.w0 = 0xFFFF ∧ t.pc = 4) := by decide
theorem test_drjnzB_not_taken :
    after { running 6 [0x06, 0xFC] with g := ⟨1, 0, 0, 0⟩ } (fun t => t.g.w0 = 0 ∧ t.pc = 8) := by decide
theorem test_drjnzW_backwards :
    after { running 0x100 [0x86, 0xFD, 0xFE] with g := ⟨2, 0, 0, 0⟩ } (fun t => t.g.w0 = 1 ∧ t.pc = 0) := by
  decide
theorem test_jmp_backwards : after (running 200 [0x07, 0x80]) (fun t => t.pc = 74) := by decide
theorem test_jmp_below_zero : after (running 0 [0x07, 0xFD]) (fun t => t.pc = 0xFFFF) := by decide
theorem test_jmpabsB : after (running 0 [0x08, 0xFF]) (fun t => t.pc = 255) := by decide
theorem test_jmpabsW : after (running 0 [0x88, 0x00, 0x02]) (fun t => t.pc = 512 ∧ t.phase = .run) := by decide
theorem test_ivec : after (running 0 [0x39]) (fun t => t.pc = 1 ∧ t.irqState = .none) := by decide
theorem test_isetpcB_ongoing :
    after { running 0 [0x0A, 0xFF] with irqState := .ongoing, spc := 1 } (fun t => t.spc = 0xFF ∧ t.pc = 2) := by
  decide
theorem test_isetpcW_outside :
    after (running 0 [0x8A, 0x34, 0x12]) (fun t => t.spc = 0 ∧ t.pc = 3) := by decide
theorem test_iret_ongoing :
    after { running 0 [0x0B] with
        irqState := .ongoing, sg := ⟨3, 0, 0, 0⟩, spc := 3, g := ⟨7, 9, 9, 9⟩, o := ⟨0xFF00, 1, 2, 3⟩ }
      (fun t => t.g = ⟨3, 0, 0, 0⟩ ∧ t.o = .zero ∧ t.pc = 3 ∧ t.irqState = .none ∧ t.phase = .run) := by decide
theorem test_iret_outside :
    after { running 0 [0x0B] with g := ⟨1, 2, 3, 4⟩ } (fun t => t.g = ⟨1, 2, 3, 4⟩ ∧ t.pc = 1) := by decide

/-! ### Model faults, 95 §2.7 -/

theorem test_wait_in_last_cell : after (running 511 [0x05]) (fun t => t.pc = 512 ∧ t.phase = .idle) := by
  decide
theorem test_fault_leading_byte : faultsWith (running 512 []) (outOfRange (fun t => t.pc = 512)) := by decide
theorem test_fault_second_operand_byte :
    faultsWith (stepping 510 [0x81, 0x34]) (outOfRange (fun t => t.pc = 512 ∧ t.g = .zero)) := by decide
theorem test_fault_drjnz_after_decrement :
    faultsWith { stepping 510 [0x86, 0x00] with g := ⟨5, 0, 0, 0⟩ }
      (outOfRange (fun t => t.pc = 512 ∧ t.g.w0 = 4)) := by decide
theorem test_fault_reservedC : faultsWith (running 0 [0x0C]) (reservedStop (fun t => t.pc = 1)) := by decide
theorem test_fault_reservedD : faultsWith (running 0 [0x0D]) (reservedStop (fun t => t.pc = 1)) := by decide
theorem test_fault_reservedE : faultsWith (stepping 0 [0x4E]) (reservedStop (fun t => t.pc = 1)) := by decide
theorem test_fault_reservedF : faultsWith (running 0 [0xFF]) (reservedStop (fun t => t.pc = 1)) := by decide

/-! ### The interrupt controller, 95 §2.6 -/

theorem test_request_accepted : after (idleWith (.requestInterrupt 2 0xBEEF) [])
    (fun t => t.irqState = .pending ∧ t.irqVec = 2 ∧ t.irqArg = 0xBEEF) := by decide
theorem test_request_dropped :
    after { idleWith (.requestInterrupt 1 1) [] with irqState := .pending, irqVec := 2, irqArg := 0xBEEF }
      (fun t => t.irqState = .pending ∧ t.irqVec = 2 ∧ t.irqArg = 0xBEEF) := by decide

/-- A parked single-step call with a request of vector `v` and argument `arg` pending. -/
def entering (v : BitVec 2) (arg : Word) (pc : Word) (cells : List Byte) : State :=
  { parkedWith .singleStep cells with
    irqState := .pending, irqVec := v, irqArg := arg, pc := pc, g := ⟨1, 2, 3, 4⟩ }

theorem test_entry_saves : after (entering 0 7 1 [0x05, 0x09, 0x0B])
    (fun t => t.sg = ⟨1, 2, 3, 4⟩ ∧ t.spc = 1 ∧ t.g = ⟨7, 2, 3, 4⟩ ∧ t.pc = 1 ∧ t.irqState = .ongoing ∧
      t.pausedAck = false ∧ t.paused ∧ t.phase = .single) := by decide
theorem test_scan_skips_operand :
    after (entering 0 7 0 [0x01, 0x09, 0x09]) (fun t => t.pc = 2 ∧ t.irqState = .ongoing) := by decide
/-- The first three cells are those of 95 §2.6, and the next one is the marker. -/
theorem test_scan_compares_whole_byte :
    after (entering 0 7 0 [0x89, 0x49, 0xC9, 0x09]) (fun t => t.pc = 3 ∧ t.irqState = .ongoing) := by decide
theorem test_scan_skips_reserved : after (entering 1 0 0 [0x0C, 0x19, 0x19]) (fun t => t.pc = 2) := by
  decide
/-- Zeros are STOPs, each one stop of the scan: it finds no marker. -/
theorem vectorScan_zeros (v : Sel) (fuel : Nat) : ∀ a, vectorScan [] (markerByte v) fuel a = none := by
  have h : Config.unlistedCell ≠ markerByte v := by revert v; decide
  induction fuel with
  | zero => intro a; rfl
  | succ n ih => intro a; simp [vectorScan, Memory.read, h, ih]
theorem scan_of_zeros (v : Sel) : findMarker [] v = none := vectorScan_zeros v _ _
theorem test_scan_none_on_empty : (entering 1 0 0 []).interruptEntry.irqState = .none ∧
    (entering 1 0 0 []).interruptEntry.pc = 0 ∧ (entering 1 0 0 []).interruptEntry.g = ⟨1, 2, 3, 4⟩ ∧
    (entering 1 0 0 []).interruptEntry.sg = .zero := by
  have h : findMarker (entering 1 0 0 []).mem (entering 1 0 0 []).irqVec = none := scan_of_zeros 1
  simp only [State.interruptEntry, h]
  exact ⟨rfl, rfl, rfl, rfl⟩

/-- 95 §3, program P5. -/
def programP5 : Memory := Memory.ofBytes 0
  [0x81, 0x09, 0x19, 0x87, 0x03, 0x8A, 0x39, 0x29, 0x05, 0x08, 0x08, 0x19, 0xB2, 0x34, 0x12, 0x0B]

/-- The scan's eight stops in the listing find no 0x09, though address 1 holds one, and find the 0x19 at 11, though
address 2 holds one. -/
theorem test_scan_P5 : vectorScan programP5 0x09 8 0 = none ∧ Memory.read programP5 1 = 0x09 ∧
    vectorScan programP5 0x19 8 0 = some 11 ∧ Memory.read programP5 2 = 0x19 := by decide

/-- 95 §3, P6: the scan's first four stops (0, 2, 5, 7) pass the marker at 3. -/
theorem test_scan_P6 : vectorScan (Memory.ofBytes 0 [0x07, 0x01, 0x81, 0x09, 0x05, 0x08, 0x04]) 0x09 4 0 = none ∧
    Memory.read (Memory.ofBytes 0 [0x07, 0x01, 0x81, 0x09, 0x05, 0x08, 0x04]) 3 = 0x09 := by decide

/-! ### The pause handshake, 95 §2.8 (sequence S1), and the agents' actions -/

/-- Line 3: a run-mode invocation of a paused engine only acknowledges. -/
theorem test_paused_run_acknowledges :
    after { idleWith .tick [0x05, 0x07, 0xFD] with paused := true, pc := 1 }
      (fun t => t.pausedAck ∧ t.pc = 1 ∧ t.phase = .idle) := by decide
/-- Line 5: a request stays pending while paused. -/
theorem test_paused_run_keeps_pending :
    after { idleWith .tick [0x05] with paused := true, pausedAck := true, irqState := .pending }
      (fun t => t.pausedAck ∧ t.irqState = .pending) := by decide
/-- Line 8: `SetPause(0)` leaves `pausedAck` as it is. -/
theorem test_resume_keeps_ack : after (parkedWith (.setPause false) [])
    (fun t => t.paused = false ∧ t.pausedAck ∧ t.view = .unparked) := by decide
/-- Line 9: the invocation that passes clears it. -/
theorem test_passing_run_clears_ack : after { idleWith .tick [0x05] with pausedAck := true }
    (fun t => t.pausedAck = false ∧ t.phase = .run ∧ t.pc = 0) := by decide
theorem test_read_ack_parks : after { idleWith .readAck [] with paused := true, pausedAck := true }
    (fun t => t.view = .parked ∧ t.outputs = [.ackRead true]) := by decide
theorem test_single_step_not_parked : refusedFor (idleWith .singleStep []) .notParked := by decide
theorem test_reset_during_burst :
    refusedFor { idleWith (.reset fullImage) [] with phase := .run } .resetDuringStep := by decide
/-- R52: every cell is the image's, the last one too, and what was there before is gone. -/
theorem test_reset_records_all_cells :
    after (idleWith (.reset (Vector.replicate 512 0x00 |>.set 511 0x09)) [0x01, 0x02])
      (fun t => t.mem = [(511, 0x09)] ∧ t.pc = 0) := by decide +kernel
theorem test_before_reset : refusedFor { idleWith .tick [] with phase := .noProgram } .beforeReset := by decide
/-- R22: a byte write leaves the other byte of the word. -/
theorem test_parked_byte_write :
    after { parkedWith (.writeGeneralByte 3 0xAB) [] with g := ⟨0, 0x1234, 0, 0⟩ }
      (fun t => t.g = ⟨0, 0xAB34, 0, 0⟩) := by decide
theorem test_parked_cell_write : after (parkedWith (.writeCell 511 0x09) [0x05])
    (fun t => t.mem = [(0, 0x05), (511, 0x09)]) := by decide
/-- Writing what an unlisted cell reads as removes the entry. -/
theorem test_cell_write_canonical : after (parkedWith (.writeCell 0 0x00) [0x05, 0x0B])
    (fun t => t.mem = [(1, 0x0B)]) := by decide

/-! ### Placing a table word -/

theorem test_withFetchWord : after (State.reset.withFetchWord 24 0x123491)
    (fun t => t.g = ⟨0, 0x1234, 0, 0⟩ ∧ t.pc = 3) := by decide
theorem test_withFetchWord_near_end : after (State.withFetchWord { State.reset with pc := 510 } 8 0x05)
    (fun t => t.pc = 1 ∧ t.phase = .idle) := by decide

/-- With one stop more than the cells to the last one, the scan finds a marker there. -/
theorem scan_to_last_cell (n a : Nat) (h : a + n = 511) :
    vectorScan [(511, 0x39)] (markerByte 3) (n + 1) a = some 511 := by
  induction n generalizing a with
  | zero => obtain rfl : a = 511 := h; rfl
  | succ n ih =>
    have e : Memory.read [(511, 0x39)] a = 0x00 := by
      simp only [Memory.read, show a ≠ 511 by omega, if_false]; rfl
    rw [vectorScan_skip (by omega) (by rw [e]; decide), e]
    exact ih (a + 1) (by omega)
theorem scan_of_last_cell : findMarker [(511, 0x39)] 3 = some 511 := scan_to_last_cell 511 0 rfl

/-! ### Witnesses: each statement's hypotheses are met, clause by clause, at a boundary where there is one -/

theorem witness_ResetReinitialises :
    (parkedWith (.reset fullImage) []).phase = .idle ∧ (parkedWith (.reset fullImage) []).view ≠ .unparked ∧
    (parkedWith (.reset fullImage) []).inputs = .reset fullImage :: [] ∧
    ({ idleWith (.reset fullImage) [] with phase := .noProgram } : State).phase = .noProgram ∧
    (idleWith (.reset fullImage) []).inputs = .reset fullImage :: [] ∧ 511 < Config.progCells ∧
    RunInvocationNext ((idleWith (.reset fullImage) []).setInputs [] |>.doReset fullImage) [] ∧
    RunInvocationNext ((idleWith (.reset fullImage) []).setInputs [.tick] |>.doReset fullImage) [] ∧
    ({ idleWith (.reset fullImage) [] with phase := .run } : State).phase = .run ∧
    ({ idleWith (.reset fullImage) [] with phase := .run } : State).inputs = .reset fullImage :: [] :=
  ⟨rfl, by decide, rfl, rfl, rfl, by decide, ⟨rfl, .inl ⟨rfl, rfl⟩⟩, ⟨rfl, .inr rfl⟩, rfl, rfl⟩
theorem witness_ResetOfUnparkedEngine : (idleWith (.reset fullImage) []).phase = .idle ∧
    (idleWith (.reset fullImage) []).view = .unparked ∧
    (idleWith (.reset fullImage) []).inputs = .reset fullImage :: [] := ⟨rfl, rfl, rfl⟩

theorem witness_BitSixIgnoredByDecodeNotByScan :
    decodesTo [0x05, 0x0B] .wait [0x0B] = true ∧ decodesTo [0x45, 0x0B] .wait [0x0B] = true ∧
    Memory.read [(511, 0x79)] 511 = (markerByte 3 ^^^ 0x40#8) ∧ findMarker [(511, 0x39)] 3 = some 511 :=
  ⟨by decide, by decide, by decide, scan_of_last_cell⟩

theorem witness_UnusedFieldsIgnored :
    (leadOpcode 0x05 = leadOpcode 0xF5 ∧ leadOpcode 0x05 = .wait) ∧
    (leadOpcode 0x88 = leadOpcode 0xF8 ∧ leadOpcode 0x88 = .jmpabs ∧ leadW 0x88 = leadW 0xF8) ∧
    (leadOpcode 0x39 = leadOpcode 0xF9 ∧ leadOpcode 0x39 = .ivec ∧ leadSel 0x39 = leadSel 0xF9) := by decide

theorem witness_WidthRuleSharedByDecoderAndScan :
    decodesTo [0x87, 0x03, 0x05] (.jmp 3) [0x05] = true ∧ (Instr.jmp 3).wellFormed = true ∧
    511 < 512 ∧ Memory.read [] 511 ≠ markerByte 0 := by decide

theorem witness_MarkerBytesAreWholeBytes : leadOpcode 0x89 = .ivec ∧ leadOpcode 0x39 = .ivec ∧
    (0x39 : Byte) = markerByte 3 ∧ Memory.read [(511, 0x89)] 511 = 0x89 ∧ leadW 0x89 = true ∧
    (0x49 : Byte).getLsbD 6 = true ∧ leadOpcode 0x49 = .ivec := by decide

theorem witness_ByteViewSharesStorage : (7 : BitVec 3) = (3 : Sel) ++ 1#1 := by decide

/-- The hypotheses of `OperandFetchStops op`. -/
def OperandPastEnd (op : Opcode) (s : State) : Prop :=
  s.phase = .run ∧ s.inputs = [] ∧ s.pc.toNat < 512 ∧ leadOpcode (Memory.read s.mem s.pc.toNat) = op ∧
    512 < s.pc.toNat + 1 + leadOperandLen (Memory.read s.mem s.pc.toNat)

theorem witness_SetregWritesImmediate :
    OperandPastEnd .setreg (running 511 [0x01]) ∧ OperandPastEnd .setreg (running 510 [0x81, 0x34]) := by
  unfold OperandPastEnd; decide
theorem witness_SetoutWritesImmediate :
    OperandPastEnd .setout (running 511 [0x02]) ∧ OperandPastEnd .setout (running 510 [0x82, 0x34]) := by
  unfold OperandPastEnd; decide
theorem witness_ModoutAddsSignedImmediate :
    OperandPastEnd .modout (running 511 [0x03]) ∧ OperandPastEnd .modout (running 510 [0x83, 0x34]) := by
  unfold OperandPastEnd; decide
theorem witness_DrjnzDecrementsAndJumps :
    OperandPastEnd .drjnz (running 511 [0x06]) ∧ OperandPastEnd .drjnz (running 510 [0x86, 0x00]) ∧
    ({ running 0 [] with g := ⟨1, 0, 0, 0⟩ } : State).g.readWord 0 = 1 ∧
    ({ running 0 [] with g := ⟨1, 0, 0, 0⟩ } : State).g.readWord 1 ≠ 1 := by
  unfold OperandPastEnd; decide
theorem witness_JmpAddsSignedOffset : leadOpcode 0x87 = .jmp ∧ OperandPastEnd .jmp (running 511 [0x87]) := by
  unfold OperandPastEnd; decide
theorem witness_JmpabsLoadsAddress :
    512 ≤ (0x0200 : Word).toNat ∧ (running 0 [0x88, 0x00, 0x02]).phase = .run ∧
    (running 0 [0x88, 0x00, 0x02]).inputs = [] ∧ OperandPastEnd .jmpabs (running 511 [0x08]) := by
  unfold OperandPastEnd; decide
theorem witness_IsetpcRedirectsOnlyWhileOngoing :
    ({ running 0 [] with irqState := .ongoing } : State).irqState = .ongoing ∧
    ({ running 0 [] with irqState := .pending } : State).irqState ≠ .ongoing ∧
    OperandPastEnd .isetpc (running 511 [0x0A]) ∧ OperandPastEnd .isetpc (running 510 [0x8A, 0x34]) := by
  unfold OperandPastEnd; decide

theorem witness_StopSetsPausedAndReturns :
    RunInvocationNext ((running 0 [0x00]).setPaused true).endInvocation [] := ⟨rfl, .inl ⟨rfl, rfl⟩⟩

theorem witness_DutyIsFloorOfProduct : (hi8 0xFF00).toNat = 255 ∧ (hi8 0x00FF).toNat = 0 := by decide

theorem witness_IretRestoresOnlyWhileOngoing :
    ({ running 0 [0x0B] with irqState := .ongoing } : State).irqState = .ongoing ∧
    (running 0 [0x0B]).irqState ≠ .ongoing := by decide

theorem witness_ReservedOpcodeStops :
    (running 511 [0x0C]).phase = .run ∧ (running 511 [0x0C]).inputs = [] ∧ (stepping 511 [0xFF]).phase = .single ∧
    (running 511 [0x0C]).pc.toNat < 512 ∧ (stepping 511 [0xFF]).pc.toNat < 512 ∧
    12 ≤ ((Memory.read (running 511 [0x0C]).mem 511).extractLsb' 0 4).toNat ∧
    12 ≤ ((Memory.read (stepping 511 [0xFF]).mem 511).extractLsb' 0 4).toNat := by decide

theorem witness_ExecFrame : exec (.ivec 3) (running 0 [0x39]) =
    .next ((running 0 [0x39]).advance 1) ∧ { running 0 [] with paused := true }.paused = true := ⟨rfl, rfl⟩

theorem witness_BlockingOpcodesAreThree :
    (running 0 []).phase = .run ∧ Instr.stop.wellFormed = true ∧ Instr.iret.wellFormed = true := by decide

theorem witness_StepRunsDecodedInstruction :
    decode (running 0 [0x05]).codeBytes = .ok (.wait, [0x00, 0x00]) ∧ (running 0 [0x05]).phase = .run ∧
    (running 0 [0x05]).inputs = [] ∧
    ({ running 0 [0x05] with inputs := [.engine] } : State).inputs = .engine :: [] := ⟨rfl, rfl, rfl, rfl⟩
theorem witness_StepRunsDecodedInstruction_single :
    decode (stepping 0 [0x05]).codeBytes = .ok (.wait, [0x00, 0x00]) ∧ (stepping 0 [0x05]).phase = .single ∧
    exec .wait (stepping 0 [0x05]) = .next ((stepping 0 [0x05]).advance 1).endInvocation := ⟨rfl, rfl, rfl⟩
theorem witness_StepRunsDecodedInstruction_fault :
    decode (stepping 0 [0x0C]).codeBytes = .ok (.reservedC, [0x00, 0x00]) ∧ (stepping 0 [0x0C]).phase = .single ∧
    exec .reservedC (stepping 0 [0x0C]) = .fault (.reservedOpcode ((stepping 0 [0x0C]).advance 1)) :=
  ⟨rfl, rfl, rfl⟩

/-- The last cell of memory is also the last of the instruction. -/
theorem witness_StepRunsEncodedInstruction :
    (running 509 [0x81, 0x34, 0x12]).phase = .run ∧ (running 509 [0x81, 0x34, 0x12]).inputs = [] ∧
    (∀ (k : Nat) (h : k < (encode (.setregW 0 0x1234)).length),
      (running 509 [0x81, 0x34, 0x12]).pc.toNat + k < 512 ∧
      Memory.read (running 509 [0x81, 0x34, 0x12]).mem ((running 509 [0x81, 0x34, 0x12]).pc.toNat + k) =
        (encode (.setregW 0 0x1234))[k]) := by
  refine ⟨rfl, rfl, ?_⟩
  intro k h
  match k, h with
  | 0, _ => exact ⟨by decide, rfl⟩
  | 1, _ => exact ⟨by decide, rfl⟩
  | 2, _ => exact ⟨by decide, rfl⟩

/-- An idle, paused engine with nothing listed. -/
def pausedIdle : State := { State.reset with paused := true, irqState := .pending }

/-- An idle engine that is not paused, with a request pending and nothing listed. -/
def pendingIdle : State := { State.reset with irqState := .pending }

/-- A parked control context that single-steps, with a request pending. -/
def pendingParked : State := { parkedWith .singleStep [] with irqState := .pending }

/-- The same engines with a tick listed. -/
def ticked (s : State) : State := { s with inputs := [.tick] }

theorem runNext_default {s : State} (hp : s.phase = .idle) (hi : s.inputs = []) : RunInvocationNext s [] :=
  ⟨hp, .inl ⟨hi, rfl⟩⟩

theorem runNext_ticked {s : State} (hp : s.phase = .idle) : RunInvocationNext (ticked s) [] := ⟨hp, .inr rfl⟩

theorem pendingParked_next : SingleStepNext pendingParked [] := ⟨rfl, by decide, rfl⟩

theorem witness_PausedRunOnlyAcknowledges :
    RunInvocationNext pausedIdle [] ∧ RunInvocationNext (ticked pausedIdle) [] ∧ pausedIdle.paused = true ∧
    SingleStepNext pendingParked [] :=
  ⟨runNext_default rfl rfl, runNext_ticked rfl, rfl, pendingParked_next⟩
theorem witness_PassingInvocationClearsAck :
    RunInvocationNext pendingIdle [] ∧ RunInvocationNext (ticked pendingIdle) [] ∧ pendingIdle.paused = false ∧
    SingleStepNext pendingParked [] ∧
    RunInvocationNext pausedIdle [] ∧ pausedIdle.paused = true ∧ pausedIdle.pausedAck = false :=
  ⟨runNext_default rfl rfl, runNext_ticked rfl, rfl, pendingParked_next, runNext_default rfl rfl, rfl, rfl⟩
theorem witness_EntryHookAtInvocationStart :
    (RunInvocationNext pendingIdle [] ∧ RunInvocationNext (ticked pendingIdle) [] ∧ pendingIdle.paused = false ∧
      pendingIdle.irqState = .pending) ∧
    (SingleStepNext pendingParked [] ∧ pendingParked.irqState = .pending) ∧
    (RunInvocationNext State.reset [] ∧ State.reset.paused = false ∧ State.reset.irqState ≠ .pending) ∧
    (SingleStepNext (parkedWith .singleStep []) [] ∧ (parkedWith .singleStep []).irqState ≠ .pending) :=
  ⟨⟨runNext_default rfl rfl, runNext_ticked rfl, rfl, rfl⟩, ⟨pendingParked_next, rfl⟩,
    ⟨runNext_default rfl rfl, rfl, by decide⟩, ⟨⟨rfl, by decide, rfl⟩, by decide⟩⟩
/-- A step that leaves PENDING: the entry of a request with a marker. -/
theorem witness_EntryHookAtInvocationStart_leaves : (entering 0 7 1 [0x05, 0x09, 0x0B]).irqState = .pending ∧
    after (entering 0 7 1 [0x05, 0x09, 0x0B]) (fun t => t.irqState ≠ .pending) = true := by decide

theorem witness_SingleStepExecutesOne :
    (stepping 0 [0x04]).phase = .single ∧ decode (stepping 0 [0x04]).codeBytes = .ok (.commit, [0x00, 0x00]) ∧
    Instr.commit.wellFormed = true ∧ SingleStepNext pendingParked [] := ⟨rfl, rfl, rfl, pendingParked_next⟩

theorem witness_FetchReadsCellAndAdvances :
    512 ≤ (running 512 []).pc.toNat ∧ (running 511 [0x05]).pc.toNat < 512 := by decide
theorem witness_FetchOutsideMemoryStops_leading :
    ((running 512 []).phase = .run ∧ (running 512 []).inputs = []) ∧ (stepping 512 []).phase = .single ∧
    512 ≤ (running 512 []).pc.toNat ∧ 512 ≤ (stepping 512 []).pc.toNat := by decide
theorem witness_FetchOutsideMemoryStops_operand :
    (running 511 [0x07]).phase = .run ∧ (running 511 [0x07]).inputs = [] ∧ (running 511 [0x07]).pc.toNat < 512 ∧
    (leadOpcode (Memory.read (running 511 [0x07]).mem 511)).valid = true ∧
    512 < (running 511 [0x07]).pc.toNat + 1 + leadOperandLen (Memory.read (running 511 [0x07]).mem 511) ∧
    (stepping 510 [0x86]).phase = .single ∧ leadOpcode (Memory.read (stepping 510 [0x86]).mem 510) = .drjnz ∧
    512 < (stepping 510 [0x86]).pc.toNat + 1 + leadOperandLen (Memory.read (stepping 510 [0x86]).mem 510) := by
  decide
theorem witness_FetchOutsideMemoryStops_fits :
    (running 511 [0x05]).pc.toNat + 1 +
      leadOperandLen (Memory.read (running 511 [0x05]).mem (running 511 [0x05]).pc.toNat) ≤ 512 ∧
    (leadOpcode (Memory.read (running 511 [0x05]).mem (running 511 [0x05]).pc.toNat)).valid = true := by
  decide

theorem witness_RequestRecordedOrDropped :
    (idleWith (.requestInterrupt 3 1) []).inputs = .requestInterrupt 3 1 :: [] ∧
    (idleWith (.requestInterrupt 3 1) []).phase = .idle ∧
    (idleWith (.requestInterrupt 3 1) []).irqState = .none ∧
    ({ idleWith (.requestInterrupt 3 1) [] with phase := .run, irqState := .ongoing } : State).phase = .run ∧
    ({ idleWith (.requestInterrupt 3 1) [] with phase := .run, irqState := .ongoing } : State).irqState ≠ .none := by
  decide

/-- Zero cells, and a word instruction's leading byte in the last cell. -/
def pastEnd : Memory := [(511, 0x81)]

/-- Every address of zero cells is on the scan's path. -/
theorem pastEnd_path : ∀ a, a ≤ 511 → OnScanPath pastEnd a
  | 0, _ => .start
  | a + 1, h => by
    have ih := OnScanPath.next a (pastEnd_path a (by omega)) (by omega)
    have e : Memory.read pastEnd a = 0x00 := by simp [pastEnd, Memory.read, Config.unlistedCell]; omega
    rw [e] at ih
    exact ih

/-- Two memories that agree on the 512 cells and differ above them. -/
theorem witness_VectorScanFindsFirstMarker_above :
    ∀ a, a < 512 → Memory.read [(511, 0x39), (512, 0x09)] a = Memory.read [(511, 0x39)] a := by
  intro a h
  simp [Memory.read, show a ≠ 512 by omega]

/-- The path reaches 514, its bound. -/
theorem witness_VectorScanFindsFirstMarker : OnScanPath pastEnd 514 :=
  .next 511 (pastEnd_path 511 (by omega)) (by omega)
/-- Both answers of the scan occur. -/
theorem witness_VectorScanFindsFirstMarker_answers :
    findMarker [(511, 0x39)] 3 = some 511 ∧ findMarker [] 0 = none := ⟨scan_of_last_cell, scan_of_zeros 0⟩

theorem witness_EntryFoundSavesAndVectors : findMarker (entering 0 7 1 [0x05, 0x09, 0x0B]).mem
    (entering 0 7 1 [0x05, 0x09, 0x0B]).irqVec = some 1 := by decide
theorem witness_EntryNotFoundDiscardsRequest :
    findMarker pendingIdle.mem pendingIdle.irqVec = none := scan_of_zeros 0
theorem witness_EntryNotFoundDiscardsRequest_goes_on :
    pendingIdle.irqState = .pending ∧ RunInvocationNext pendingIdle [] ∧ pendingIdle.paused = false ∧
    pendingParked.irqState = .pending ∧ SingleStepNext pendingParked [] ∧
    findMarker pendingParked.mem pendingParked.irqVec = none :=
  ⟨rfl, runNext_default rfl rfl, rfl, rfl, pendingParked_next, scan_of_zeros 0⟩
/-- `DIAG_EN` has no value in the model: one of the two clauses about it applies. -/
theorem witness_EntryNotFoundDiscardsRequest_diag : Config.diagEn = true ∨ Config.diagEn = false := by
  cases Config.diagEn <;> decide
theorem witness_InterruptRoundTripRestores : findMarker [(5, 0x09)] pendingIdle.irqVec = some 5 := by
  decide

theorem witness_IrqStateTransitions :
    step (idleWith (.requestInterrupt 1 9) []) =
      .next { State.reset with irqState := .pending, irqVec := 1, irqArg := 9 } := rfl

/-- A burst inside a handler, at an IVEC, an ISETPC or an IRET. -/
def ongoingAt (cells : List Byte) : State := { running 0 cells with irqState := .ongoing }

/-- An entry, which writes the saved banks. -/
theorem witness_SavedStateWrittenByEntryOnly_entry : (entering 0 7 1 [0x05, 0x09, 0x0B]).inputs = [.singleStep] ∧
    after (entering 0 7 1 [0x05, 0x09, 0x0B]) (fun t => t.sg ≠ (entering 0 7 1 [0x05, 0x09, 0x0B]).sg) = true := by
  decide
theorem witness_SavedStateWrittenByEntryOnly :
    step (ongoingAt [0x0A, 0xFF]) = .next { ongoingAt [0x0A, 0xFF] with spc := 0xFF, pc := 2 } ∧
    (∀ image rest, (ongoingAt [0x0A, 0xFF]).inputs ≠ .reset image :: rest) ∧
    (ongoingAt [0x0A, 0xFF]).irqState ≠ .pending ∧
    ({ ongoingAt [0x0A, 0xFF] with spc := 0xFF, pc := 2 } : State).spc ≠ (ongoingAt [0x0A, 0xFF]).spc :=
  ⟨rfl, (fun _ _ h => by cases h), by decide, by decide⟩

theorem witness_ProgramMemoryWrittenByLoaderOnly :
    step (parkedWith (.writeCell 0 0x09) []) = .next { parkedWith .tick [] with inputs := [], mem := [(0, 0x09)] } ∧
    ({ parkedWith .tick [] with inputs := [], mem := [(0, 0x09)] } : State).mem ≠
      (parkedWith (.writeCell 0 0x09) []).mem := ⟨rfl, by decide⟩

theorem witness_RegistersIndependentOfControlState :
    (running 0 []).irqState ≠ .ongoing ∧ (stepping 9 [0x0B]).irqState ≠ .ongoing ∧
    KeepsGeneral (running 0 []) (stepping 9 [0x0B]) ∧ KeepsOutput (running 0 []) (stepping 9 [0x0B]) ∧
    exec (.drjnzB 0 3) (running 0 []) = .next ((running 0 []).advance 2 |>.decrementJump 0 3) ∧
    exec (.drjnzB 0 3) (stepping 9 [0x0B]) = .next ((stepping 9 [0x0B]).advance 2 |>.decrementJump 0 3) :=
  ⟨by decide, by decide, fun _ => rfl, fun _ => rfl, rfl, rfl⟩

theorem witness_SetPauseWritesFlagOnly :
    (idleWith (.setPause true) []).inputs = .setPause true :: [] ∧ (idleWith (.setPause true) []).phase = .idle ∧
    ({ idleWith (.setPause false) [] with phase := .run } : State).phase = .run := by decide

theorem witness_PausedWrittenByStopAndHostOnly :
    (step (idleWith (.setPause true) []) = .next { State.reset with paused := true }) ∧
    (idleWith (.setPause true) []).paused = false ∧
    (step (running 0 [0x00]) = .next { State.reset with paused := true, pc := 1 }) ∧
    (running 0 [0x00]).paused = false ∧
    (step { idleWith (.setPause false) [] with paused := true } = .next State.reset) ∧
    (step { idleWith (.reset fullImage) [] with paused := true } =
      .next (({ idleWith (.reset fullImage) [] with paused := true, inputs := [] } : State).doReset fullImage)) :=
  ⟨rfl, rfl, rfl, rfl, rfl, rfl⟩

theorem witness_AckSetByPausedRunOnly :
    (step pausedIdle = .next { pausedIdle with pausedAck := true } ∧ pausedIdle.pausedAck = false) ∧
    (step { State.reset with pausedAck := true } = .next { State.reset with phase := .run }) := ⟨⟨rfl, rfl⟩, rfl⟩

theorem witness_SharedWritesOnlyWhileParked :
    (parkedWith (.writeGeneral 3 7) []).phase = .idle ∧ (parkedWith (.writeGeneral 3 7) []).view = .parked ∧
    (parkedWith (.writeGeneral 3 7) []).inputs = .writeGeneral 3 7 :: [] ∧
    (parkedWith (.writeOutput 3 7) []).inputs = .writeOutput 3 7 :: [] ∧
    Memory.wf (parkedWith (.writeCell 511 7) []).mem = true ∧
    (parkedWith (.writeCell 511 7) []).inputs = .writeCell 511 7 :: [] := by decide
theorem witness_SharedWritesOnlyWhileParked_bytes :
    (parkedWith (.writeGeneralByte 7 1) []).phase = .idle ∧ (parkedWith (.writeGeneralByte 7 1) []).view = .parked ∧
    (parkedWith (.writeGeneralByte 7 1) []).inputs = .writeGeneralByte 7 1 :: [] ∧
    (parkedWith (.writeOutputByte 7 1) []).inputs = .writeOutputByte 7 1 :: [] := by decide
theorem witness_SharedWritesOnlyWhileParked_refused :
    (idleWith (.writeCell 511 7) []).inputs = .writeCell 511 7 :: [] ∧
    (idleWith (.writeCell 511 7) []).phase = .idle ∧ (idleWith (.writeCell 511 7) []).view ≠ .parked ∧
    ({ idleWith (.writeGeneralByte 7 7) [] with phase := .run } : State).phase = .run := by decide

theorem witness_PendingSurvivesPausedRuns :
    ((ticked pausedIdle).phase = .idle ∧ (∀ act, act ∈ (ticked pausedIdle).inputs → act = .tick) ∧
      (ticked pausedIdle).paused = true ∧ (ticked pausedIdle).irqState = .pending) ∧
    (pendingIdle.irqState = .pending ∧ RunInvocationNext pendingIdle [] ∧ pendingIdle.paused = false ∧
      findMarker pendingIdle.mem pendingIdle.irqVec = none) ∧
    (pendingParked.irqState = .pending ∧ SingleStepNext pendingParked []) ∧
    (SingleStepNext (entering 0 7 1 [0x05, 0x09, 0x0B]) [] ∧
      findMarker (entering 0 7 1 [0x05, 0x09, 0x0B]).mem (entering 0 7 1 [0x05, 0x09, 0x0B]).irqVec = some 1) :=
  ⟨⟨rfl, by decide, rfl, rfl⟩, ⟨rfl, runNext_default rfl rfl, rfl, scan_of_zeros 0⟩, ⟨rfl, pendingParked_next⟩,
    ⟨rfl, by decide, rfl⟩, by decide⟩

theorem witness_ControlContextReadsReturnState :
    ((idleWith .readAck []).inputs = .readAck :: [] ∧ (idleWith .readAck []).phase = .idle) ∧
    ((parkedWith .inspect []).inputs = .inspect :: [] ∧ (parkedWith .inspect []).phase = .idle ∧
      (parkedWith .inspect []).view ≠ .unparked) := by decide

theorem witness_OnlyResetBeforeFirstReset :
    ({ State.reset with phase := .noProgram } : State).inputs = [] ∧
    ({ idleWith .readAck [] with phase := .noProgram } : State).phase = .noProgram ∧
    (∀ image, Action.readAck ≠ .reset image) ∧ (∀ v, Action.readAck ≠ .setBrightness v) :=
  ⟨rfl, rfl, (fun _ h => by cases h), (fun _ h => by cases h)⟩

theorem witness_StepsNeverOverlap :
    ({ idleWith .tick [] with phase := .run } : State).phase = .run ∧
    ({ idleWith .tick [] with phase := .run } : State).inputs = .tick :: [] ∧
    (idleWith .singleStep []).phase = .idle ∧ (idleWith .singleStep []).inputs = .singleStep :: [] ∧
    (idleWith .singleStep []).view = .unparked := by decide

/-- A burst in progress meets the invariant, and its step has a next state. -/
theorem witness_StepKeepsInvariant : (running 511 [0x05]).Inv ∧
    step (running 511 [0x05]) = .next { running 511 [0x05] with pc := 512, phase := .idle } :=
  ⟨⟨by decide, by decide, by decide, by decide, by decide, by decide⟩, rfl⟩

/-- The two states of one step inside a handler. -/
def handlerTrace (k : Nat) : State := if k = 0 then ongoingAt [0x09] else { ongoingAt [0x09] with pc := 1 }

theorem witness_OngoingKeepsSnapshot : handlerTrace 0 = ongoingAt [0x09] ∧
    (∀ k, k < 1 → step (handlerTrace k) = .next (handlerTrace (k + 1))) ∧
    (∀ k, k ≤ 1 → (handlerTrace k).irqState = .ongoing) := by
  refine ⟨rfl, ?_, ?_⟩
  · intro k h
    obtain rfl : k = 0 := by omega
    rfl
  · intro k _
    unfold handlerTrace
    split <;> rfl

end Sys2Proof.Tests
end

section
/-! The state family: what one step does to the interrupt state, SavedState and `paused`, the invariant of the
state, and the byte view of a bank (10_state.md). -/

namespace Sys2Proof.Machine

/-! ### The byte view of a bank, R22 -/

/-- Byte `2*i` and byte `2*i+1` lie in word `i`. -/
theorem byteWord_append (i : Sel) (b : BitVec 1) : byteWord (i ++ b) = i := by
  revert i b; decide

/-- The low bit of a byte's index says which half of its word it is. -/
theorem byteIsHigh_append (i : Sel) (b : BitVec 1) : byteIsHigh (i ++ b) = b.getLsbD 0 := by
  revert i b; decide

/-- A byte's index is its word and its half. -/
theorem eq_of_byteWord_eq_of_byteIsHigh_eq {j k : BitVec 3} (hw : byteWord j = byteWord k)
    (hh : byteIsHigh j = byteIsHigh k) : j = k := by
  revert j k; decide

/-- The byte view after a byte write. -/
theorem Bank.readByte_writeByte (b : Bank) (j k : BitVec 3) (v : Byte) :
    (b.writeByte j v).readByte k = if k = j then v else b.readByte k := by
  by_cases hw : byteWord k = byteWord j
  · by_cases hh : byteIsHigh k = byteIsHigh j
    · obtain rfl := eq_of_byteWord_eq_of_byteIsHigh_eq hw hh
      cases hk : byteIsHigh k <;> simp [Bank.readByte, Bank.writeByte, hk]
    · have hkj : k ≠ j := fun h => hh (h ▸ rfl)
      cases hk : byteIsHigh k <;> cases hj : byteIsHigh j <;>
        simp_all [Bank.readByte, Bank.writeByte]
  · have hkj : k ≠ j := fun h => hw (h ▸ rfl)
    simp [Bank.readByte, Bank.writeByte, Bank.readWord_writeWord_other _ _ hw, hkj]

/-- Settles O10: an index is a word and a half of it, so a byte write is a word write that keeps the other half. -/
theorem byteViewSharesStorage : Obligations.ByteViewSharesStorage := by
  refine ⟨fun b i => ⟨?_, ?_⟩, Bank.readByte_writeByte, fun b i k v => b.readWord_writeWord i k v⟩
  · simp [Bank.readByte, byteWord_append, byteIsHigh_append, lo8]
  · simp [Bank.readByte, byteWord_append, byteIsHigh_append, hi8]

/-! ### The reset state, R37 -/

/-- Settles O1: `State.reset` writes each of the fields out. -/
theorem resetStateIsZero : Obligations.ResetStateIsZero :=
  ⟨fun i => ⟨Bank.readWord_zero i, Bank.readWord_zero i, Bank.readWord_zero i, Bank.readWord_zero i⟩,
    rfl, rfl, rfl, rfl, rfl, rfl, rfl⟩

/-! ### Before the first `Reset`, R38 -/

/-- Before the first `Reset` the model has no move for an action on the block but `Reset`. -/
theorem perform_of_noProgram {s : State} {a : Action} (hp : s.phase = .noProgram)
    (hr : ∀ image, a ≠ .reset image) (hb : ∀ v, a ≠ .setBrightness v) :
    State.perform a s = .refused .beforeReset := by
  cases a with
  | reset image => exact absurd rfl (hr image)
  | setBrightness v => exact absurd rfl (hb v)
  | tick => simp [State.perform, State.tick, hp]
  | engine => simp [State.perform, State.engineTurn, hp]
  | singleStep => simp [State.perform, State.singleStep, hp]
  | inspect => simp [State.perform, State.inspect, hp]
  | requestInterrupt | setPause | readAck => simp [State.perform, State.afterReset, hp]
  | writeGeneral | writeGeneralByte | writeOutput | writeOutputByte | writeCell =>
    simp [State.perform, State.parkedWrite, hp]

/-- Settles O50: the default move and every other action test the phase first. -/
theorem onlyResetBeforeFirstReset : Obligations.OnlyResetBeforeFirstReset := by
  intro s hp
  refine ⟨fun hi => by simp [step, State.move, State.defaultMove, hp, hi], ?_⟩
  intro a rest hi hr hb
  rw [step_action (by simp [hp]) hi]
  exact perform_of_noProgram hp hr hb

/-! ### What an instruction does to `paused` and `spc` -/

/-- Only STOP writes `paused`. -/
theorem exec_next_paused_eq {i : Instr} {s t : State} (h : exec i s = .next t) (hi : i ≠ .stop) :
    t.paused = s.paused := by
  cases i with
  | stop => exact absurd rfl hi
  | iret => rcases execIret_next h with ⟨-, rfl⟩ | ⟨-, rfl⟩ <;> simp
  | reservedC | reservedD | reservedE | reservedF => cases h
  | _ => cases h; simp

/-- Outside an interrupt ISETPC loads nothing. -/
theorem redirectReturn_of_not_ongoing {target : Word} {s : State} (h : s.irqState ≠ .ongoing) :
    s.redirectReturn target = s := by
  cases hs : s.irqState <;> simp_all [State.redirectReturn]

/-- Only ISETPC writes `spc`, and only while ONGOING. -/
theorem exec_next_spc {i : Instr} {s t : State} (h : exec i s = .next t) :
    t.spc = s.spc ∨
      (s.irqState = .ongoing ∧ ((∃ addr, i = .isetpcB addr) ∨ ∃ addr, i = .isetpcW addr)) := by
  cases i with
  | isetpcB | isetpcW =>
    by_cases hs : s.irqState = .ongoing
    · exact .inr ⟨hs, by simp⟩
    · cases h
      exact .inl (by rw [redirectReturn_of_not_ongoing] <;> simp [hs])
  | iret => rcases execIret_next h with ⟨-, rfl⟩ | ⟨-, rfl⟩ <;> simp
  | reservedC | reservedD | reservedE | reservedF => cases h
  | _ => cases h; simp

/-! ### Where a step's next state comes from -/

/-- The actions that give the engine a turn; the others are the host's (R8). -/
def Action.isTurn : Action → Bool
  | .tick | .engine | .singleStep => true
  | .requestInterrupt _ _ | .setPause _ | .readAck | .reset _ | .setBrightness _ | .inspect
  | .writeGeneral _ _ | .writeGeneralByte _ _ | .writeOutput _ _ | .writeOutputByte _ _ | .writeCell _ _ => false

/-- Where the next state `t` of a step from `s` comes from, with `rest` the actions that stay listed: an instruction,
the start of an invocation, the turn of an idle engine, or an action of the host. -/
inductive StepSource (s t : State) (rest : List Action) : Prop
  | instr (i : Instr) (bytes : List Byte) (u : State) (hp : s.phase = .run ∨ s.phase = .single)
      (hd : decode s.codeBytes = .ok (i, bytes)) (he : exec i (s.setInputs rest) = .next u)
      (ht : t = u ∨ t = u.endSingle)
  | beginRun (hp : s.phase = .idle) (ht : t = (s.setInputs rest).beginRun)
  | beginSingle (hp : s.phase = .idle) (hv : s.view ≠ .unparked)
      (ht : t = (s.setInputs rest).beginSingle.setView .stepped)
  | idleTurn (ht : t = s.setInputs rest)
  | host (a : Action) (hp : s.phase ≠ .single) (hi : s.inputs = a :: rest) (ha : a.isTurn = false)
      (h : State.perform a (s.setInputs rest) = .next t)

/-- The fetch does not look at the coming actions. -/
theorem decode_of_fetchInstr_setInputs {s : State} {rest : List Action} {i : Instr}
    (h : (s.setInputs rest).fetchInstr = .ok i) : ∃ bytes, decode s.codeBytes = .ok (i, bytes) := by
  simpa using decode_of_fetchInstr h

/-- Every next state has such a source. -/
theorem step_next_source {s t : State} (h : step s = .next t) : ∃ rest, StepSource s t rest := by
  rcases step_next_cases h with ⟨hp, i, u, hf, he, ht⟩ | ⟨hp, -, i, hf, he⟩ | ⟨hp, -, ht⟩ |
    ⟨hp, a, rest, hi, ha⟩
  · obtain ⟨bytes, hd⟩ := decode_of_fetchInstr hf
    exact ⟨s.inputs, .instr i bytes u (.inr hp) hd he (.inr ht)⟩
  · obtain ⟨bytes, hd⟩ := decode_of_fetchInstr hf
    exact ⟨s.inputs, .instr i bytes t (.inl hp) hd he (.inl rfl)⟩
  · exact ⟨s.inputs, .beginRun hp ht⟩
  · refine ⟨rest, ?_⟩
    cases a with
    | tick =>
      obtain ⟨hidle, ht⟩ := perform_next_cases ha
      exact .beginRun hidle ht
    | singleStep =>
      obtain ⟨hidle, hv, ht⟩ := perform_next_cases ha
      exact .beginSingle hidle hv ht
    | engine =>
      rcases perform_next_cases ha with ⟨-, ht⟩ | ⟨hrun, i, hf, he⟩ | ⟨hsingle, -⟩
      · exact .idleTurn ht
      · obtain ⟨bytes, hd⟩ := decode_of_fetchInstr_setInputs hf
        exact .instr i bytes t (.inl hrun) hd he (.inl rfl)
      · exact absurd hsingle hp
    | _ => exact .host _ hp hi rfl ha

/-! ### The interrupt state and SavedState over one step -/

/-- SavedState as one value (R25). -/
def State.saved (s : State) : Bank × Bank × Word := (s.sg, s.so, s.spc)

theorem State.saved_eq_iff {s t : State} : t.saved = s.saved ↔ t.sg = s.sg ∧ t.so = s.so ∧ t.spc = s.spc := by
  simp [State.saved]

/-- What a step can do to the interrupt state and SavedState: keep both, take a request, enter the interrupt or discard
its request, redirect the return, return, or reset (R25, R30). -/
inductive InterruptChange (s t : State) : Prop
  | kept (hirq : t.irqState = s.irqState) (hsaved : t.saved = s.saved)
  | requested (hs : s.irqState = .none) (ht : t.irqState = .pending) (hsaved : t.saved = s.saved)
      (hi : ∃ v arg rest, s.inputs = .requestInterrupt v arg :: rest)
  | entered (hs : s.irqState = .pending) (hp : s.phase = .idle) (ht : t.irqState = .ongoing)
      (hm : ∃ a, findMarker s.mem s.irqVec = some a)
  | discarded (hs : s.irqState = .pending) (hp : s.phase = .idle) (ht : t.irqState = .none)
      (hm : findMarker s.mem s.irqVec = none) (hsaved : t.saved = s.saved)
  | redirected (hs : s.irqState = .ongoing) (hirq : t.irqState = s.irqState) (hsg : t.sg = s.sg) (hso : t.so = s.so)
      (hd : (∃ addr rest, decode s.codeBytes = .ok (.isetpcB addr, rest)) ∨
        ∃ addr rest, decode s.codeBytes = .ok (.isetpcW addr, rest))
  | returned (hs : s.irqState = .ongoing) (ht : t.irqState = .none) (hsaved : t.saved = s.saved)
      (hd : ∃ rest, decode s.codeBytes = .ok (.iret, rest))
  | reset (ht : t.irqState = .none) (hi : ∃ image rest, s.inputs = .reset image :: rest)

/-- An instruction keeps both, redirects the return, or returns. -/
theorem exec_interruptChange {s t : State} {rest : List Action} {i : Instr} {bytes : List Byte}
    (hd : decode s.codeBytes = .ok (i, bytes)) (he : exec i (s.setInputs rest) = .next t) :
    InterruptChange s t := by
  obtain ⟨-, -, -, -, hsg, hso, -⟩ := exec_next_keeps he
  rcases exec_next_irqState he with hirq | ⟨rfl, hs, ht⟩
  · rcases exec_next_spc he with hspc | ⟨hs, ⟨addr, rfl⟩ | ⟨addr, rfl⟩⟩
    · exact .kept hirq (State.saved_eq_iff.2 ⟨hsg, hso, hspc⟩)
    · exact .redirected hs hirq hsg hso (.inl ⟨addr, bytes, hd⟩)
    · exact .redirected hs hirq hsg hso (.inr ⟨addr, bytes, hd⟩)
  · have hspc : t.spc = s.spc := by simpa using exec_next_spc he
    exact .returned hs ht (State.saved_eq_iff.2 ⟨hsg, hso, hspc⟩) ⟨bytes, hd⟩

/-- Steps 2 and 3 of `Step`: nothing to enter, entry with the marker found, or a discarded request (R104). -/
theorem enterPending_interruptChange {s : State} (hp : s.phase = .idle) (rest : List Action) :
    InterruptChange s (s.setInputs rest).enterPending := by
  by_cases hs : s.irqState = .pending
  · rw [enterPending_of_pending (by exact hs)]
    cases hm : findMarker s.mem s.irqVec with
    | some a => exact .entered hs hp (by simp [State.interruptEntry, hm]) ⟨a, hm⟩
    | none =>
      exact .discarded hs hp (by simp [State.interruptEntry, hm]) hm
        (by simp [State.interruptEntry, hm, State.saved])
  · rw [enterPending_of_not_pending (by exact hs)]
    exact .kept rfl rfl

/-- The change is seen in the interrupt state and SavedState alone. -/
theorem InterruptChange.congr {s t u : State} (h : InterruptChange s t) (hirq : u.irqState = t.irqState)
    (hsaved : u.saved = t.saved) : InterruptChange s u := by
  obtain ⟨hsg, hso, -⟩ := State.saved_eq_iff.1 hsaved
  cases h with
  | kept hi hk => exact .kept (hirq.trans hi) (hsaved.trans hk)
  | requested hs ht hk hi => exact .requested hs (hirq.trans ht) (hsaved.trans hk) hi
  | entered hs hp ht hm => exact .entered hs hp (hirq.trans ht) hm
  | discarded hs hp ht hm hk => exact .discarded hs hp (hirq.trans ht) hm (hsaved.trans hk)
  | redirected hs hi hg ho hd => exact .redirected hs (hirq.trans hi) (hsg.trans hg) (hso.trans ho) hd
  | returned hs ht hk hd => exact .returned hs (hirq.trans ht) (hsaved.trans hk) hd
  | reset ht hi => exact .reset (hirq.trans ht) hi

/-- The host's actions take a request, reset the block, or keep the interrupt state and SavedState. -/
theorem perform_interruptChange {s t : State} {a : Action} {rest : List Action} (hi : s.inputs = a :: rest)
    (ha : a.isTurn = false) (h : State.perform a (s.setInputs rest) = .next t) : InterruptChange s t := by
  cases a with
  | tick | engine | singleStep => cases ha
  | requestInterrupt v arg =>
    obtain ⟨-, rfl⟩ := perform_next_cases h
    cases hs : s.irqState with
    | none => exact .requested hs (by simp [State.requestInterrupt, hs]) (by simp [State.saved]) ⟨v, arg, rest, hi⟩
    | pending | ongoing => exact .kept (by simp [State.requestInterrupt, hs]) (by simp [State.saved])
  | reset image =>
    obtain ⟨-, rfl⟩ := perform_next_cases h
    exact .reset rfl ⟨image, rest, hi⟩
  | setPause | readAck =>
    obtain ⟨-, rfl⟩ := perform_next_cases h
    exact .kept rfl rfl
  | setBrightness =>
    cases h
    exact .kept rfl rfl
  | inspect | writeGeneral | writeGeneralByte | writeOutput | writeOutputByte | writeCell =>
    obtain ⟨-, -, rfl⟩ := perform_next_cases h
    exact .kept rfl rfl

/-- Every step makes one of the listed changes. -/
theorem step_interruptChange {s t : State} (h : step s = .next t) : InterruptChange s t := by
  obtain ⟨rest, hsrc⟩ := step_next_source h
  cases hsrc with
  | instr i bytes u hp hd he ht =>
    have hu := exec_interruptChange hd he
    rcases ht with rfl | rfl
    · exact hu
    · exact hu.congr rfl rfl
  | beginRun hp ht =>
    subst ht
    cases hpaused : s.paused with
    | true => rw [beginRun_of_paused (by exact hpaused)]; exact .kept rfl rfl
    | false =>
      rw [beginRun_of_not_paused (by exact hpaused)]
      exact (enterPending_interruptChange hp rest).congr rfl rfl
  | beginSingle hp hv ht =>
    subst ht
    exact (enterPending_interruptChange hp rest).congr rfl rfl
  | idleTurn ht =>
    subst ht
    exact .kept rfl rfl
  | host a hp hi ha h => exact perform_interruptChange hi ha h

/-- Settles O40: the constructors of `InterruptChange` are R30's transitions. -/
theorem irqStateTransitions : Obligations.IrqStateTransitions := by
  intro s t h
  cases step_interruptChange h with
  | kept hirq | redirected _ hirq => exact .inl hirq
  | requested hs ht _ hi => exact .inr (.inl ⟨hs, ht, hi⟩)
  | entered hs hp ht hm => exact .inr (.inr (.inl ⟨hs, hp, .inl ⟨ht, hm⟩⟩))
  | discarded hs hp ht hm => exact .inr (.inr (.inl ⟨hs, hp, .inr ⟨ht, hm⟩⟩))
  | returned hs ht _ hd => exact .inr (.inr (.inr (.inl ⟨hs, ht, hd⟩)))
  | reset ht hi => exact .inr (.inr (.inr (.inr ⟨ht, hi⟩)))

/-- Settles O41: of the changes other than `Reset`, entry alone does not keep the saved banks, and entry and the
redirected return alone do not keep `spc`. -/
theorem savedStateWrittenByEntryOnly : Obligations.SavedStateWrittenByEntryOnly := by
  intro s t h hreset
  cases step_interruptChange h with
  | kept _ hsaved | requested _ _ hsaved | discarded _ _ _ _ hsaved | returned _ _ hsaved =>
    obtain ⟨hsg, hso, hspc⟩ := State.saved_eq_iff.1 hsaved
    exact ⟨fun hne => by simp [hsg, hso] at hne, fun hne => absurd hspc hne⟩
  | entered hs hp ht => exact ⟨fun _ => ⟨hs, hp, ht⟩, fun _ => .inl ⟨hs, hp, ht⟩⟩
  | redirected hs _ hsg hso hd => exact ⟨fun hne => by simp [hsg, hso] at hne, fun _ => .inr ⟨hs, hd⟩⟩
  | reset _ hi =>
    obtain ⟨image, rest, hi⟩ := hi
    exact absurd hi (hreset image rest)

/-- A step that begins and ends ONGOING keeps the saved banks. -/
theorem step_ongoing_keeps_savedBanks {s t : State} (h : step s = .next t) (hs : s.irqState = .ongoing)
    (ht : t.irqState = .ongoing) : t.sg = s.sg ∧ t.so = s.so := by
  cases step_interruptChange h with
  | kept _ hsaved =>
    obtain ⟨hsg, hso, -⟩ := State.saved_eq_iff.1 hsaved
    exact ⟨hsg, hso⟩
  | redirected _ _ hsg hso => exact ⟨hsg, hso⟩
  | requested hs' | entered hs' | discarded hs' => simp [hs] at hs'
  | returned _ ht' | reset ht' => simp [ht] at ht'

/-- Settles O54, by induction on the number of steps. -/
theorem ongoingKeepsSnapshot : Obligations.OngoingKeepsSnapshot := by
  intro n s trace h0 hstep hon i
  obtain ⟨hsg, hso⟩ : (trace n).sg = s.sg ∧ (trace n).so = s.so := by
    induction n with
    | zero => simp [h0]
    | succ n ih =>
      obtain ⟨hsg, hso⟩ := ih (fun k hk => hstep k (by omega)) (fun k hk => hon k (by omega))
      obtain ⟨hsg', hso'⟩ :=
        step_ongoing_keeps_savedBanks (hstep n (by omega)) (hon n (by omega)) (hon (n + 1) le_rfl)
      exact ⟨hsg'.trans hsg, hso'.trans hso⟩
  simp [hsg, hso]

/-! ### `paused` over one step -/

/-- The host's actions write `paused` by `SetPause` and by `Reset` alone. -/
theorem perform_next_paused {s t : State} {a : Action} (ha : a.isTurn = false)
    (h : State.perform a s = .next t) :
    t.paused = s.paused ∨ a = .setPause t.paused ∨ (t.paused = false ∧ ∃ image, a = .reset image) := by
  cases a with
  | tick | engine | singleStep => cases ha
  | reset image =>
    obtain ⟨-, rfl⟩ := perform_next_cases h
    exact .inr (.inr ⟨rfl, image, rfl⟩)
  | setPause value =>
    obtain ⟨-, rfl⟩ := perform_next_cases h
    exact .inr (.inl rfl)
  | requestInterrupt | readAck =>
    obtain ⟨-, rfl⟩ := perform_next_cases h
    simp
  | setBrightness =>
    cases h
    exact .inl rfl
  | inspect | writeGeneral | writeGeneralByte | writeOutput | writeOutputByte | writeCell =>
    obtain ⟨-, -, rfl⟩ := perform_next_cases h
    exact .inl rfl

/-- What a step can do to `paused`: keep it, set it by a decoded STOP, or write it by `SetPause` or `Reset` (R28). -/
theorem step_next_paused {s t : State} (h : step s = .next t) :
    t.paused = s.paused ∨
    (t.paused = true ∧ (s.phase = .run ∨ s.phase = .single) ∧ ∃ bytes, decode s.codeBytes = .ok (.stop, bytes)) ∨
    (∃ rest, s.inputs = .setPause t.paused :: rest) ∨
    (t.paused = false ∧ ∃ image rest, s.inputs = .reset image :: rest) := by
  obtain ⟨rest, hsrc⟩ := step_next_source h
  cases hsrc with
  | instr i bytes u hp hd he ht =>
    have htu : t.paused = u.paused := by rcases ht with rfl | rfl <;> rfl
    by_cases hi : i = .stop
    · subst hi
      cases he
      exact .inr (.inl ⟨by simp [htu], hp, bytes, hd⟩)
    · exact .inl (by simp [htu, exec_next_paused_eq he hi])
  | beginRun hp ht => exact .inl (by simp [ht])
  | beginSingle hp hv ht => exact .inl (by simp [ht])
  | idleTurn ht => exact .inl (by simp [ht])
  | host a hp hi ha h =>
    rcases perform_next_paused ha h with hkept | rfl | ⟨ht, image, rfl⟩
    · exact .inl (by simpa using hkept)
    · exact .inr (.inr (.inl ⟨rest, hi⟩))
    · exact .inr (.inr (.inr ⟨ht, image, rest, hi⟩))

/-- Settles O45: of the writes of `paused`, only STOP and `SetPause(1)` set it, and only `SetPause(0)` and `Reset`
clear it. -/
theorem pausedWrittenByStopAndHostOnly : Obligations.PausedWrittenByStopAndHostOnly := by
  intro s t h
  rcases step_next_paused h with hkept | ⟨ht, hp, hd⟩ | ⟨rest, hi⟩ | ⟨ht, hreset⟩
  · exact ⟨fun hs ht => by simp [hkept, hs] at ht, fun hs ht => by simp [hkept, hs] at ht⟩
  · exact ⟨fun _ _ => .inr ⟨hp, hd⟩, fun _ ht' => by simp [ht] at ht'⟩
  · exact ⟨fun _ ht => .inl ⟨rest, ht ▸ hi⟩, fun _ ht => .inl ⟨rest, ht ▸ hi⟩⟩
  · exact ⟨fun _ ht' => by simp [ht] at ht', fun _ _ => .inr hreset⟩

/-! ### The invariant -/

/-- The invariant looks at the memory, the flags, the phase and the control context's knowledge alone. -/
theorem State.Inv.congr {s t : State} (hs : s.Inv) (hmem : t.mem = s.mem) (hpaused : t.paused = s.paused)
    (hack : t.pausedAck = s.pausedAck) (hphase : t.phase = s.phase) (hview : t.view = s.view) : t.Inv := by
  obtain ⟨h1, h2, h3, h4, h5, h6⟩ := hs
  constructor <;> simpa only [hmem, hpaused, hack, hphase, hview]

/-- The end of an invocation keeps the invariant. -/
theorem State.Inv.endSingle {s : State} (hs : s.Inv) : s.endSingle.Inv where
  memWf := hs.memWf
  parkedAcked := hs.parkedAcked
  steppedPaused := hs.steppedPaused
  busyUnacked := by simp
  singleParked := by simp
  runUnparked := by simp

/-- Every instruction keeps the invariant: it writes neither memory, `pausedAck` nor the control context's knowledge,
it only sets `paused`, and it goes on or ends the invocation. -/
theorem State.Inv.exec {s t : State} {i : Instr} (hs : s.Inv) (h : exec i s = .next t) : t.Inv := by
  obtain ⟨hmem, hack, -, -, -, -, -, hview, -⟩ := exec_next_keeps h
  have hpaused : s.paused = true → t.paused = true := by
    rcases exec_next_paused h with hp | hp <;> simp [hp]
  have hphase (p : Phase) (hp : p ≠ .idle) (ht : t.phase = p) : s.phase = p := by
    rcases exec_next_phase h with hk | hk
    · exact hk ▸ ht
    · exact absurd (ht.symm.trans hk) hp
  constructor
  case memWf => exact hmem ▸ hs.memWf
  case parkedAcked =>
    intro hv
    obtain ⟨hp, ha⟩ := hs.parkedAcked (hview ▸ hv)
    exact ⟨hpaused hp, hack.trans ha⟩
  case steppedPaused => exact fun hv => hpaused (hs.steppedPaused (hview ▸ hv))
  case busyUnacked =>
    exact fun hp => hack.trans (hs.busyUnacked (hp.imp (hphase _ nofun) (hphase _ nofun)))
  case singleParked => exact fun hp => hview.trans (hs.singleParked (hphase _ nofun hp))
  case runUnparked => exact fun hp => hview.trans (hs.runUnparked (hphase _ nofun hp))

/-- A parked control context sees `paused` at 1. -/
theorem State.Inv.paused_of_view {s : State} (hs : s.Inv) (hv : s.view ≠ .unparked) : s.paused = true := by
  cases h : s.view with
  | unparked => exact absurd h hv
  | parked => exact (hs.parkedAcked h).1
  | stepped => exact hs.steppedPaused h

/-- The start of a run-mode invocation keeps the invariant: paused, it acknowledges; not paused, no control context is
parked. -/
theorem State.Inv.beginRun {s : State} (hs : s.Inv) (hp : s.phase = .idle) : s.beginRun.Inv := by
  cases hpaused : s.paused with
  | true =>
    rw [beginRun_of_paused hpaused]
    constructor <;> simp [hp, hpaused, hs.memWf]
  | false =>
    have hview : s.view = .unparked := by
      by_contra hv
      simp [hs.paused_of_view hv] at hpaused
    rw [beginRun_of_not_paused hpaused]
    constructor <;> simp [hview, hs.memWf]

/-- The start of a single-step call by a parked control context keeps the invariant. -/
theorem State.Inv.beginSingle {s : State} (hs : s.Inv) (hv : s.view ≠ .unparked) :
    (s.beginSingle.setView .stepped).Inv := by
  constructor <;> simp [hs.memWf, hs.paused_of_view hv]

/-- `SetPause` keeps the invariant: 1 sets `paused`, and 0 ends the parked time. -/
theorem State.Inv.setPause {s : State} (hs : s.Inv) (hp : s.phase ≠ .single) (value : Bool) :
    (s.setPause value).Inv := by
  cases value with
  | true => exact { hs with
      parkedAcked := fun hv => ⟨rfl, (hs.parkedAcked hv).2⟩
      steppedPaused := fun _ => rfl }
  | false => exact {
      memWf := hs.memWf
      parkedAcked := nofun
      steppedPaused := nofun
      busyUnacked := hs.busyUnacked
      singleParked := fun h => absurd h hp
      runUnparked := fun _ => rfl }

/-- A read of `pausedAck` keeps the invariant: it parks only where no invocation is in progress. -/
theorem State.Inv.readAck {s : State} (hs : s.Inv) : s.readAck.Inv := by
  by_cases hpa : s.paused = true ∧ s.pausedAck = true
  · obtain ⟨hpaused, hack⟩ := hpa
    have hidle : ¬(s.phase = .run ∨ s.phase = .single) := fun hp => by simp [hs.busyUnacked hp] at hack
    rw [not_or] at hidle
    constructor <;> simp [hs.memWf, hpaused, hack, hidle]
  · exact hs.congr rfl rfl rfl rfl (by simp [hpa])

/-- Every action of the host keeps the invariant. -/
theorem State.Inv.perform {s t : State} {a : Action} (hs : s.Inv) (hp : s.phase ≠ .single) (ha : a.isTurn = false)
    (h : State.perform a s = .next t) : t.Inv := by
  cases a with
  | tick | engine | singleStep => cases ha
  | requestInterrupt =>
    obtain ⟨-, rfl⟩ := perform_next_cases h
    exact hs.congr (by simp) (by simp) (by simp) (by simp) (by simp)
  | setBrightness =>
    cases h
    exact hs.congr rfl rfl rfl rfl rfl
  | inspect | writeGeneral | writeGeneralByte | writeOutput | writeOutputByte =>
    obtain ⟨-, -, rfl⟩ := perform_next_cases h
    exact hs.congr rfl rfl rfl rfl rfl
  | setPause value =>
    obtain ⟨-, rfl⟩ := perform_next_cases h
    exact hs.setPause hp value
  | readAck =>
    obtain ⟨-, rfl⟩ := perform_next_cases h
    exact hs.readAck
  | reset image =>
    obtain ⟨-, rfl⟩ := perform_next_cases h
    constructor <;> simp [Memory.wf_ofImage]
  | writeCell addr value =>
    obtain ⟨-, -, rfl⟩ := perform_next_cases h
    exact { hs with memWf := Memory.wf_write hs.memWf addr.isLt }

/-- Settles O53: the invariant does not look at the coming actions, and each source of a next state keeps it. -/
theorem stepKeepsInvariant : Obligations.StepKeepsInvariant := by
  intro s t hs h
  obtain ⟨rest, hsrc⟩ := step_next_source h
  have hu : (s.setInputs rest).Inv := hs.congr rfl rfl rfl rfl rfl
  cases hsrc with
  | instr i bytes u hp hd he ht =>
    rcases ht with rfl | rfl
    · exact hu.exec he
    · exact (hu.exec he).endSingle
  | beginRun hp ht => exact ht ▸ hu.beginRun hp
  | beginSingle hp hv ht => exact ht ▸ hu.beginSingle hv
  | idleTurn ht => exact ht ▸ hu
  | host a hp hi ha h => exact hu.perform hp ha h

end Sys2Proof.Machine
end

section
/-! The memory family: where the engine's fetch stops and where it runs, and the writers of program memory
(20_memory.md). -/

namespace Sys2Proof.Machine

/-! ### The step of an invocation in progress, in both modes -/

/-- The engine's instruction comes next: in a burst with no listed action, or in a single-step call. -/
def InstructionNext (s : State) : Prop := (s.phase = .run ∧ s.inputs = []) ∨ s.phase = .single

/-- A fetch that stops is the outcome of the step, in both modes. -/
theorem step_of_fetchInstr_error {s : State} {f : Fault} (hs : InstructionNext s) (hf : s.fetchInstr = .error f) :
    step s = .fault f := by
  have hr : s.runInstr = .fault f := by simp [State.runInstr, hf]
  rcases hs with ⟨hp, hi⟩ | hp
  · rw [step_run hp hi, hr]
  · simp [step_single hp, State.runSingle, hr]

/-- A fetched instruction of one of the twelve valid opcodes runs, in both modes. -/
theorem step_of_fetchInstr_ok {s : State} {i : Instr} (hs : InstructionNext s) (hf : s.fetchInstr = .ok i)
    (hi : i.wellFormed = true) : ∃ t, step s = .next t := by
  obtain ⟨u, he⟩ : ∃ u, exec i s = .next u := by
    rcases exec_cases i s with ⟨-, h⟩ | ⟨h, -⟩
    · exact h
    · simp [hi] at h
  have hr : s.runInstr = .next u := by simp [State.runInstr, hf, he]
  rcases hs with ⟨hp, hin⟩ | hp
  · exact ⟨u, by rw [step_run hp hin, hr]⟩
  · exact ⟨u.endSingle, by simp [step_single hp, State.runSingle, hr]⟩

/-! ### Where the operand fetch stops and where it does not, R58 -/

/-- A valid leading byte's operand is what the width rule gives it (R76). -/
theorem consumedOperands_of_valid {b : Byte} (h : (leadOpcode b).valid = true) :
    consumedOperands b = leadOperandLen b := by
  simp [consumedOperands, h]

/-- An instruction that ends inside the memory is fetched, with the opcode of its leading byte. -/
theorem fetchInstr_of_fits {s : State}
    (h : s.pc.toNat + 1 + consumedOperands (Memory.read s.mem s.pc.toNat) ≤ 512) :
    ∃ i, s.fetchInstr = .ok i ∧ i.opcode = leadOpcode (Memory.read s.mem s.pc.toNat) := by
  obtain ⟨tail, ht, hlen⟩ := codeBytes_cons (s := s) (by omega)
  have h2 := consumedOperands_le_two (Memory.read s.mem s.pc.toNat)
  obtain ⟨i, hi, hd⟩ := decode_of_enough (Memory.read s.mem s.pc.toNat) tail (by omega)
  exact ⟨i, fetchInstr_of_decode (ht ▸ hd), assemble_opcode hi⟩

/-- Before its operand DRJNZ has decremented its register. -/
theorem beforeOperands_of_drjnz {b : Byte} (s : State) (h : leadOpcode b = .drjnz) :
    State.beforeOperands b s = s.setGeneral (leadSel b) (s.g.readWord (leadSel b) - 1) := by
  simp [State.beforeOperands, h]

/-- Before its operand every other instruction has written nothing. -/
theorem beforeOperands_of_ne_drjnz {b : Byte} (s : State) (h : leadOpcode b ≠ .drjnz) :
    State.beforeOperands b s = s := by
  cases ho : leadOpcode b <;> simp_all [State.beforeOperands]

/-- Before its operand no instruction has written anything but a general register. -/
theorem beforeOperands_frame (b : Byte) (s : State) :
    (State.beforeOperands b s).pc = s.pc ∧ KeepsOutput s (State.beforeOperands b s) ∧
      KeepsAllButBanks s (State.beforeOperands b s) := by
  by_cases h : leadOpcode b = .drjnz <;>
    simp [beforeOperands_of_drjnz, beforeOperands_of_ne_drjnz, h, KeepsOutput, KeepsAllButBanks, KeepsControl,
      KeepsSaved, KeepsMemory, KeepsOutside]

/-- The general registers when DRJNZ's operand fetch begins. -/
theorem readWord_beforeOperands_of_drjnz {b : Byte} (s : State) (h : leadOpcode b = .drjnz) (j : Sel) :
    (State.beforeOperands b s).g.readWord j =
      if j = leadSel b then s.g.readWord j - 1 else s.g.readWord j := by
  rw [beforeOperands_of_drjnz s h, setGeneral_g, Bank.readWord_writeWord]
  by_cases hj : j = leadSel b <;> simp [hj]

/-- Settles O34: the fetch tests each byte, and both modes pass its outcome on. -/
theorem fetchOutsideMemoryStops : Obligations.FetchOutsideMemoryStops := by
  refine ⟨fun s hs hpc => step_of_fetchInstr_error hs (fetchInstr_outside hpc), ?_, ?_⟩
  · intro s hs hpc hvalid hlen
    rw [← consumedOperands_of_valid hvalid] at hlen
    refine ⟨_, step_of_fetchInstr_error hs (fetchInstr_truncated hpc hlen), ?_⟩
    obtain ⟨hend, hout, hkeep⟩ := beforeOperands_frame (Memory.read s.mem s.pc.toNat) { s with pc := 512#16 }
    refine ⟨hend, hout, hkeep, fun hop j => ?_, fun hop j => readWord_beforeOperands_of_drjnz _ hop j⟩
    rw [beforeOperands_of_ne_drjnz _ hop]
  · intro s hs hlen hvalid
    rw [← consumedOperands_of_valid hvalid] at hlen
    obtain ⟨i, hf, hop⟩ := fetchInstr_of_fits hlen
    exact step_of_fetchInstr_ok hs hf (by simp [Instr.wellFormed, hop, hvalid])

/-! ### The writers of program memory, R56 and R60 -/

/-- The host's actions write program memory by `Reset` and by the loader's parked write alone. -/
theorem perform_next_mem {s t : State} {a : Action} (ha : a.isTurn = false) (h : State.perform a s = .next t) :
    t.mem = s.mem ∨ (∃ image, a = .reset image) ∨
      (s.view = .parked ∧ s.phase = .idle ∧ ∃ addr value, a = .writeCell addr value) := by
  cases a with
  | tick | engine | singleStep => cases ha
  | reset image => exact .inr (.inl ⟨image, rfl⟩)
  | writeCell addr value =>
    obtain ⟨hp, hv, -⟩ := perform_next_cases h
    exact .inr (.inr ⟨hv, hp, addr, value, rfl⟩)
  | requestInterrupt | setPause | readAck =>
    obtain ⟨-, rfl⟩ := perform_next_cases h
    simp
  | setBrightness =>
    cases h
    exact .inl rfl
  | inspect | writeGeneral | writeGeneralByte | writeOutput | writeOutputByte =>
    obtain ⟨-, -, rfl⟩ := perform_next_cases h
    exact .inl rfl

/-- Settles O42: no instruction and no start of an invocation writes program memory, so its writers are the host's. -/
theorem programMemoryWrittenByLoaderOnly : Obligations.ProgramMemoryWrittenByLoaderOnly := by
  intro s t h hne
  obtain ⟨rest, hsrc⟩ := step_next_source h
  cases hsrc with
  | instr i bytes u hp hd he ht =>
    have htu : t.mem = u.mem := by rcases ht with rfl | rfl <;> rfl
    obtain ⟨hmem, -⟩ := exec_next_keeps he
    exact absurd (htu.trans hmem) hne
  | beginRun hp ht => exact absurd (by simp [ht]) hne
  | beginSingle hp hv ht => exact absurd (by simp [ht]) hne
  | idleTurn ht => exact absurd (by simp [ht]) hne
  | host a hp hi ha h =>
    rcases perform_next_mem ha h with hkept | ⟨image, rfl⟩ | ⟨hv, hidle, addr, value, rfl⟩
    · exact absurd hkept hne
    · exact .inl ⟨image, rest, hi⟩
    · exact .inr ⟨hv, hidle, addr, value, rest, hi⟩

end Sys2Proof.Machine
end

section
/-! The encoding family: the decoder's answer in one equivalence, the fields it reads, the encoder's inverse, and what
the vector scan does at a leading byte (30_encoding.md). -/

namespace Sys2Proof

/-! ### The decoder's answer, R77 and R78 -/

/-- The decoder answers with `i` and `rest` exactly if the operand bytes of its leading byte are there and assemble to
`i`, and `rest` is what follows them. -/
theorem decode_cons_eq_ok_iff {b : Byte} {tail rest : List Byte} {i : Instr} :
    decode (b :: tail) = .ok (i, rest) ↔
      consumedOperands b ≤ tail.length ∧ assemble b (tail.take (consumedOperands b)) = some i ∧
        rest = tail.drop (consumedOperands b) := by
  constructor
  · intro h
    obtain ⟨_, _, hbs, hanswer⟩ := decode_ok h
    cases hbs
    exact hanswer
  · rintro ⟨hlen, hi, rfl⟩
    simp [decode, Nat.not_lt.2 hlen, hi]

/-- A decoded instruction has the opcode of its leading byte. -/
theorem opcode_of_decode {b : Byte} {tail rest : List Byte} {i : Instr} (h : decode (b :: tail) = .ok (i, rest)) :
    i.opcode = leadOpcode b := by
  obtain ⟨-, hi, -⟩ := decode_cons_eq_ok_iff.1 h
  exact assemble_opcode hi

/-! ### The encoder's inverse -/

/-- An instruction has the operand bytes that its leading byte makes the engine consume. -/
theorem length_operandBytes (i : Instr) :
    (operandBytes i).length = consumedOperands (leadByte i.width i.sel i.opcode) := by
  rw [Laws.EncodeShape.consumedOperands_leadByte]
  cases i <;> rfl

/-- An instruction is assembled from its own leading byte and operand bytes: the fields are read back, and a word is
its two cells. -/
theorem assemble_operandBytes (i : Instr) :
    assemble (leadByte i.width i.sel i.opcode) (operandBytes i) = some i := by
  cases i <;> simp [assemble, withOperand, operandBytes, Instr.width, Instr.sel, Instr.opcode]

/-- Settles O4: the decoder takes exactly the operand bytes that the encoder wrote. -/
theorem decodeEncodeRoundTrip : Obligations.DecodeEncodeRoundTrip := by
  intro i rest
  refine decode_cons_eq_ok_iff.2 ?_
  simp [← length_operandBytes, assemble_operandBytes]

/-! ### The fields that the decoder reads, R72, R74 and R75 -/

/-- Whether the decoder looks at `W` (R75). -/
def Opcode.usesWidth : Opcode → Bool
  | .setreg | .setout | .modout | .drjnz | .jmpabs | .isetpc => true
  | .stop | .commit | .wait | .jmp | .ivec | .iret | .reservedC | .reservedD | .reservedE | .reservedF => false

/-- Whether the decoder looks at the selector (R74). -/
def Opcode.usesSel : Opcode → Bool
  | .setreg | .setout | .modout | .drjnz | .ivec => true
  | .stop | .commit | .wait | .jmp | .jmpabs | .isetpc | .iret
  | .reservedC | .reservedD | .reservedE | .reservedF => false

/-- Leading bytes that agree in the opcode and in the fields it uses decode alike. (Where the bytes end too early, the
error names the leading byte.) -/
theorem decode_ok_congr {b c : Byte} (ho : leadOpcode b = leadOpcode c)
    (hw : (leadOpcode b).usesWidth = true → leadW b = leadW c)
    (hs : (leadOpcode b).usesSel = true → leadSel b = leadSel c) (tail rest : List Byte) (i : Instr) :
    decode (b :: tail) = .ok (i, rest) ↔ decode (c :: tail) = .ok (i, rest) := by
  have hconsumed : consumedOperands b = consumedOperands c := by
    unfold consumedOperands leadOperandLen
    rw [← ho]
    generalize leadOpcode b = o at hw
    cases o with
    | setreg | setout | modout | drjnz | jmpabs | isetpc => rw [hw rfl]
    | _ => rfl
  have hassemble (ops : List Byte) : assemble b ops = assemble c ops := by
    unfold assemble
    rw [← ho]
    generalize leadOpcode b = o at hw hs
    cases o with
    | setreg | setout | modout | drjnz => rw [hw rfl, hs rfl]
    | jmpabs | isetpc => rw [hw rfl]
    | ivec => rw [hs rfl]
    | _ => rfl
  simp only [decode_cons_eq_ok_iff, hconsumed, hassemble]

/-- Settles O6: in each group of the opcode table the ignored fields are those that the opcode does not use. -/
theorem unusedFieldsIgnored : Obligations.UnusedFieldsIgnored := by
  intro b c tail rest i ho hgroup
  refine decode_ok_congr ho (fun hw => ?_) (fun hs => ?_) tail rest i
  · rcases hgroup with hneither | ⟨-, hW⟩ | ⟨h, -⟩
    · rcases hneither with h | h | h | h | h <;> simp [h, Opcode.usesWidth] at hw
    · exact hW
    · simp [h, Opcode.usesWidth] at hw
  · rcases hgroup with hneither | ⟨h | h, -⟩ | ⟨-, hSel⟩
    · rcases hneither with h | h | h | h | h <;> simp [h, Opcode.usesSel] at hs
    · simp [h, Opcode.usesSel] at hs
    · simp [h, Opcode.usesSel] at hs
    · exact hSel

/-! ### Bit 6, R72 -/

theorem leadW_xor_bit6 (b : Byte) : leadW (b ^^^ 0x40#8) = leadW b := by
  simp [leadW]

theorem leadSel_xor_bit6 (b : Byte) : leadSel (b ^^^ 0x40#8) = leadSel b := by
  simp [leadSel, BitVec.extractLsb'_xor]

theorem leadOpcode_xor_bit6 (b : Byte) : leadOpcode (b ^^^ 0x40#8) = leadOpcode b := by
  simp [leadOpcode, BitVec.extractLsb'_xor]

/-! ### Valid and reserved leading bytes, R80 and R82 -/

/-- A reserved opcode is a low half byte of 12 to 15. -/
theorem leadOpcode_valid_eq_false_iff (b : Byte) :
    (leadOpcode b).valid = false ↔ 12 ≤ (b.extractLsb' 0 4).toNat := by
  have h (n : BitVec 4) : (Opcode.ofNumber n).valid = false ↔ 12 ≤ n.toNat := by
    revert n; decide
  exact h _

/-- Twelve of the sixteen values of the low half byte are valid, each with sixteen values of the other fields. -/
theorem length_filter_leadOpcode_valid :
    ((List.range 256).filter fun n => (leadOpcode (BitVec.ofNat 8 n)).valid).length = 192 := by
  rfl

/-- Settles O8: two bytes are as many operand bytes as any leading byte needs. -/
theorem everyLeadingByteCovered : Obligations.EveryLeadingByteCovered := by
  refine ⟨fun b x y => ?_, length_filter_leadOpcode_valid⟩
  obtain ⟨i, -, hd⟩ := decode_of_enough b [x, y] (consumedOperands_le_two b)
  refine ⟨i, _, hd, ?_⟩
  rw [Instr.wellFormed, opcode_of_decode hd, leadOpcode_valid_eq_false_iff]

/-! ### The leading byte from its fields, and the markers, R81 -/

/-- A leading byte with bit 6 clear is its three fields. -/
theorem leadByte_of_bit6 {b : Byte} (h : b.getLsbD 6 = false) :
    leadByte (leadW b) (leadSel b) (leadOpcode b) = b := by
  have h6 : b[6] = false := h
  refine BitVec.eq_of_getLsbD_eq fun i hi => ?_
  simp only [leadByte, leadOpcode, Opcode.number_ofNumber, leadW, leadSel, BitVec.getLsbD_append]
  interval_cases i <;> simp [h6]

/-- A marker is the canonical IVEC byte of its vector. -/
theorem markerByte_eq_leadByte (v : Sel) : markerByte v = leadByte false v .ivec := by
  revert v; decide

@[simp] theorem leadW_markerByte (v : Sel) : leadW (markerByte v) = false := by
  rw [markerByte_eq_leadByte, leadW_leadByte]

@[simp] theorem leadSel_markerByte (v : Sel) : leadSel (markerByte v) = v := by
  rw [markerByte_eq_leadByte, leadSel_leadByte]

@[simp] theorem leadOpcode_markerByte (v : Sel) : leadOpcode (markerByte v) = .ivec := by
  rw [markerByte_eq_leadByte, leadOpcode_leadByte]

theorem markerByte_bit6 (v : Sel) : (markerByte v).getLsbD 6 = false := by
  rw [markerByte_eq_leadByte, Laws.EncodeShape.leadByte_bit6]

/-- An IVEC byte is a marker exactly if the two bits it ignores are 0. -/
theorem eq_markerByte_iff {b : Byte} (h : leadOpcode b = .ivec) :
    (∃ v, b = markerByte v) ↔ leadW b = false ∧ b.getLsbD 6 = false := by
  constructor
  · rintro ⟨v, rfl⟩
    exact ⟨leadW_markerByte v, markerByte_bit6 v⟩
  · rintro ⟨hw, h6⟩
    exact ⟨leadSel b, by rw [markerByte_eq_leadByte, ← hw, ← h, leadByte_of_bit6 h6]⟩

/-- Whatever its other bits are, an IVEC byte decodes to the IVEC of its selector. -/
theorem decode_of_ivec {b : Byte} (h : leadOpcode b = .ivec) (tail : List Byte) :
    decode (b :: tail) = .ok (.ivec (leadSel b), tail) := by
  simp [decode_cons_eq_ok_iff, consumedOperands, leadOperandLen, assemble, operandLen, h]

namespace Machine

/-! ### The vector scan at a leading byte, R163 -/

/-- The scan answers a cell of the memory, and the cell holds the marker. -/
theorem read_of_vectorScan_eq_some {m : Memory} {marker : Byte} {fuel a c : Nat}
    (h : vectorScan m marker fuel a = some c) : c < 512 ∧ Memory.read m c = marker := by
  induction fuel generalizing a with
  | zero => cases h
  | succ n ih =>
    by_cases ha : a < 512
    · by_cases hm : Memory.read m a = marker
      · rw [vectorScan_match ha hm] at h
        cases h
        exact ⟨ha, hm⟩
      · rw [vectorScan_skip ha hm] at h
        exact ih h
    · rw [vectorScan_outside (by omega)] at h
      cases h

/-- The scan passes an IVEC byte with `W` or bit 6 set, which has no operand. -/
theorem vectorScan_skip_ivec {m : Memory} (w : Sel) (fuel : Nat) {a : Nat} (ha : a < 512)
    (hop : leadOpcode (Memory.read m a) = .ivec)
    (hbit : leadW (Memory.read m a) = true ∨ (Memory.read m a).getLsbD 6 = true) :
    vectorScan m (markerByte w) (fuel + 1) a = vectorScan m (markerByte w) fuel (a + 1) := by
  have hne : Memory.read m a ≠ markerByte w := by
    intro hm
    obtain ⟨hw, h6⟩ := (eq_markerByte_iff hop).1 ⟨w, hm⟩
    simp only [hw, h6, Bool.false_eq_true, or_self] at hbit
  rw [vectorScan_skip ha hne]
  simp [leadOperandLen, operandLen, hop]

/-- Settles O9: the markers are the IVEC bytes with both ignored bits 0. -/
theorem markerBytesAreWholeBytes : Obligations.MarkerBytesAreWholeBytes := by
  refine ⟨rfl, rfl, rfl, rfl, fun b hop => ⟨eq_markerByte_iff hop, ?_, decode_of_ivec hop, ?_⟩⟩
  · rintro v rfl
    exact leadSel_markerByte v
  · rintro m w fuel a ha rfl hbit
    exact vectorScan_skip_ivec w fuel ha hop hbit

/-- Settles O5: no field that the decoder reads has bit 6 in it, and every marker and encoding has bit 6 clear. -/
theorem bitSixIgnoredByDecodeNotByScan : Obligations.BitSixIgnoredByDecodeNotByScan := by
  refine ⟨fun b tail rest i => ?_, fun m v w fuel a ha hm => ?_, fun m v a h => ?_, fun i => ?_⟩
  · exact decode_ok_congr (leadOpcode_xor_bit6 b).symm (fun _ => (leadW_xor_bit6 b).symm)
      (fun _ => (leadSel_xor_bit6 b).symm) tail rest i
  · refine vectorScan_skip_ivec w fuel ha ?_ (.inr ?_)
    · rw [hm, leadOpcode_xor_bit6, leadOpcode_markerByte]
    · rw [hm, BitVec.getLsbD_xor, markerByte_bit6]
      rfl
  · obtain ⟨-, hm⟩ := read_of_vectorScan_eq_some h
    rw [hm, markerByte_bit6]
  · exact ⟨_, _, rfl, Laws.EncodeShape.leadByte_bit6 _ _ _⟩

/-! ### The width rule, R76 -/

/-- Settles O7: the decoder drops the operand bytes it has consumed, and the scan's step is the width rule's. -/
theorem widthRuleSharedByDecoderAndScan : Obligations.WidthRuleSharedByDecoderAndScan := by
  refine ⟨by decide, fun b tail rest i hd hi => ?_, fun m marker fuel a ha hm => vectorScan_skip ha hm⟩
  obtain ⟨hlen, -, rfl⟩ := decode_cons_eq_ok_iff.1 hd
  have hvalid : (leadOpcode b).valid = true := opcode_of_decode hd ▸ hi
  rw [consumedOperands_of_valid hvalid] at hlen ⊢
  simpa [leadOperandLen] using (Nat.add_sub_cancel' hlen).symm

/-! ### Reserved opcodes, R80 -/

/-- A reserved instruction is the fault ReservedOpcode after its leading byte. -/
theorem exec_of_not_wellFormed {i : Instr} (s : State) (hi : i.wellFormed = false) :
    exec i s = .fault (.reservedOpcode (s.advance 1)) := by
  rcases exec_cases i s with ⟨h, -⟩ | ⟨-, h⟩
  · simp [hi] at h
  · exact h

/-- Both modes pass on the fault of their instruction. -/
theorem step_of_runInstr_fault {s : State} {f : Fault} (hs : InstructionNext s) (hr : s.runInstr = .fault f) :
    step s = .fault f := by
  rcases hs with ⟨hp, hi⟩ | hp
  · rw [step_run hp hi, hr]
  · simp [step_single hp, State.runSingle, hr]

/-- At a reserved leading byte the engine fetches no operand and stops. -/
theorem step_of_reserved {s : State} (hs : InstructionNext s) (hpc : s.pc.toNat < 512)
    (hres : (leadOpcode (Memory.read s.mem s.pc.toNat)).valid = false) :
    step s = .fault (.reservedOpcode (s.advance 1)) := by
  have hnone : consumedOperands (Memory.read s.mem s.pc.toNat) = 0 := by simp [consumedOperands, hres]
  obtain ⟨i, hf, hop⟩ := fetchInstr_of_fits (s := s) (by omega)
  have he := exec_of_not_wellFormed s (i := i) (by rw [Instr.wellFormed, hop, hres])
  exact step_of_runInstr_fault hs (by simp [State.runInstr, hf, he])

/-- For a reserved opcode the width rule goes by `W`. -/
theorem operandLen_of_reserved {o : Opcode} (h : o.valid = false) (w : Bool) :
    operandLen o w = if w then 2 else 1 := by
  cases o with
  | reservedC | reservedD | reservedE | reservedF => rfl
  | _ => cases h

/-- A marker is no reserved byte. -/
theorem ne_markerByte_of_reserved {b : Byte} (h : (leadOpcode b).valid = false) (v : Sel) : b ≠ markerByte v := by
  rintro rfl
  simp [Opcode.valid] at h

/-- The leading bytes that are not valid. -/
theorem length_filter_leadOpcode_reserved :
    ((List.range 256).filter fun n => !(leadOpcode (BitVec.ofNat 8 n)).valid).length = 64 := by
  have hsum := List.length_eq_length_filter_add (l := List.range 256)
    fun n => (leadOpcode (BitVec.ofNat 8 n)).valid
  rw [List.length_range, length_filter_leadOpcode_valid] at hsum
  omega

/-- Settles O24: the four reserved forms are those that are not well formed. -/
theorem reservedOpcodeStops : Obligations.ReservedOpcodeStops := by
  refine ⟨fun s i hi => ?_, fun s hs hpc hres => ?_, fun m v fuel a ha hres => ?_,
    length_filter_leadOpcode_reserved⟩
  · exact exec_of_not_wellFormed s (by rcases hi with rfl | rfl | rfl | rfl <;> rfl)
  · exact step_of_reserved hs hpc ((leadOpcode_valid_eq_false_iff _).2 hres)
  · rw [← leadOpcode_valid_eq_false_iff] at hres
    rw [vectorScan_skip ha (ne_markerByte_of_reserved hres v), leadOperandLen, operandLen_of_reserved hres]

end Machine
end Sys2Proof
end

section
/-! The engine family: the frame of an instruction, the step that runs what stands at `pc`, the start of an invocation,
and the single-step call (40_engine.md). -/

namespace Sys2Proof.Machine

/-! ### `Fetch8()`, R103 -/

/-- Settles O33: the two sides of `fetch8`'s test. -/
theorem fetchReadsCellAndAdvances : Obligations.FetchReadsCellAndAdvances :=
  ⟨fun _ h => fetch8_none h, fun _ h => fetch8_some h⟩

/-! ### What an instruction does to the registers, `pc` and the events -/

/-- Only COMMIT emits. -/
theorem exec_next_outputs {i : Instr} {s t : State} (h : exec i s = .next t) (hi : i ≠ .commit) :
    t.outputs = s.outputs := by
  cases i with
  | commit => exact absurd rfl hi
  | iret => rcases execIret_next h with ⟨-, rfl⟩ | ⟨-, rfl⟩ <;> simp
  | reservedC | reservedD | reservedE | reservedF => cases h
  | _ => cases h; simp

/-- An instruction keeps the general bank, writes its selected word (SETREG, DRJNZ), or is IRET. -/
theorem exec_next_g {i : Instr} {s t : State} (h : exec i s = .next t) :
    t.g = s.g ∨ ((i.opcode = .setreg ∨ i.opcode = .drjnz) ∧ ∃ v, t.g = s.g.writeWord i.sel v) ∨
      i.opcode = .iret := by
  cases i with
  | setregB | setregW => cases h; exact .inr (.inl ⟨.inl rfl, _, rfl⟩)
  | drjnzB | drjnzW => cases h; exact .inr (.inl ⟨.inr rfl, _, decrementJump_g _ _ _⟩)
  | iret => exact .inr (.inr rfl)
  | reservedC | reservedD | reservedE | reservedF => cases h
  | _ => cases h; simp

/-- An instruction keeps the output bank, writes its selected word (SETOUT, MODOUT), or is IRET. -/
theorem exec_next_o {i : Instr} {s t : State} (h : exec i s = .next t) :
    t.o = s.o ∨ ((i.opcode = .setout ∨ i.opcode = .modout) ∧ ∃ v, t.o = s.o.writeWord i.sel v) ∨
      i.opcode = .iret := by
  cases i with
  | setoutB | setoutW => cases h; exact .inr (.inl ⟨.inl rfl, _, rfl⟩)
  | modoutB | modoutW => cases h; exact .inr (.inl ⟨.inr rfl, _, rfl⟩)
  | iret => exact .inr (.inr rfl)
  | reservedC | reservedD | reservedE | reservedF => cases h
  | _ => cases h; simp

/-- Where at most the word `sel` of a bank is written, every other word reads as before. -/
theorem Bank.readWord_of_write_selected {b c : Bank} {sel : Sel} {writes returns : Prop}
    (h : c = b ∨ (writes ∧ ∃ v, c = b.writeWord sel v) ∨ returns) (j : Sel) :
    writes ∧ j = sel ∨ returns ∨ c.readWord j = b.readWord j := by
  rcases h with rfl | ⟨hw, v, rfl⟩ | hr
  · exact .inr (.inr rfl)
  · by_cases hj : j = sel
    · exact .inl ⟨hw, hj⟩
    · exact .inr (.inr (b.readWord_writeWord_other v hj))
  · exact .inr (.inl hr)

/-- What transfers no control advances `pc` by the instruction's length. -/
theorem exec_next_pc {i : Instr} {s t : State} (h : exec i s = .next t) (hdrjnz : i.opcode ≠ .drjnz)
    (hjmp : i.opcode ≠ .jmp) (hjmpabs : i.opcode ≠ .jmpabs) (hiret : i.opcode ≠ .iret) :
    t.pc = s.pc + BitVec.ofNat 16 (1 + operandLen i.opcode i.width) := by
  cases i with
  | drjnzB | drjnzW => exact absurd rfl hdrjnz
  | jmp => exact absurd rfl hjmp
  | jmpabsB | jmpabsW => exact absurd rfl hjmpabs
  | iret => exact absurd rfl hiret
  | reservedC | reservedD | reservedE | reservedF => cases h
  | isetpcB | isetpcW => cases h; simp [operandLen, Instr.opcode, Instr.width]
  | _ => cases h; rfl

/-- Settles O25: one lemma per state field says which opcode may write it. -/
theorem execFrame : Obligations.ExecFrame := by
  intro i s t h
  obtain ⟨hmem, hack, hvec, harg, hsg, hso, hbright, hview, hinputs⟩ := exec_next_keeps h
  refine ⟨fun a => by rw [hmem], hack, hvec, harg, fun j => by simp [hsg, hso], hbright, hview, hinputs,
    fun hop => exec_next_paused_eq h (by rintro rfl; exact hop rfl), fun hs => ?paused, fun hop => ?irqState,
    fun hop => ?spc, fun hop => exec_next_outputs h (by rintro rfl; exact hop rfl),
    Bank.readWord_of_write_selected (exec_next_g h), Bank.readWord_of_write_selected (exec_next_o h), exec_next_pc h⟩
  case paused => rcases exec_next_paused h with ht | ht <;> simp [ht, hs]
  case irqState =>
    rcases exec_next_irqState h with ht | ⟨rfl, -⟩
    · exact ht
    · exact absurd rfl hop
  case spc =>
    rcases exec_next_spc h with ht | ⟨-, ⟨_, rfl⟩ | ⟨_, rfl⟩⟩
    · exact ht
    · exact absurd rfl hop
    · exact absurd rfl hop

/-! ### Blocking opcodes, R107 -/

/-- A blocking instruction ends the invocation. -/
theorem exec_next_phase_of_blocking {i : Instr} {s t : State} (h : exec i s = .next t)
    (hb : i.opcode = .stop ∨ i.opcode = .commit ∨ i.opcode = .wait) : t.phase = .idle := by
  cases i with
  | stop | commit | wait => cases h; rfl
  | _ => simp [Instr.opcode] at hb

/-- Any other instruction leaves the invocation in progress. -/
theorem exec_next_phase_of_not_blocking {i : Instr} {s t : State} (h : exec i s = .next t)
    (hb : ¬(i.opcode = .stop ∨ i.opcode = .commit ∨ i.opcode = .wait)) : t.phase = s.phase := by
  cases i with
  | stop | commit | wait => simp [Instr.opcode] at hb
  | iret => rcases execIret_next h with ⟨-, rfl⟩ | ⟨-, rfl⟩ <;> simp
  | reservedC | reservedD | reservedE | reservedF => cases h
  | _ => cases h; simp

/-- An instruction of one of the twelve valid opcodes completes. -/
theorem exec_of_wellFormed {i : Instr} (s : State) (hi : i.wellFormed = true) : ∃ t, exec i s = .next t := by
  rcases exec_cases i s with ⟨-, h⟩ | ⟨h, -⟩
  · exact h
  · simp [hi] at h

/-- Settles O26: a valid instruction completes, and its opcode alone decides the phase. -/
theorem blockingOpcodesAreThree : Obligations.BlockingOpcodesAreThree := by
  intro i s hp hi
  obtain ⟨t, h⟩ := exec_of_wellFormed s hi
  exact ⟨t, h, exec_next_phase_of_blocking h, fun hb => (exec_next_phase_of_not_blocking h hb).trans hp⟩

/-! ### The step of the instruction at `pc`, R105 and R106 -/

/-- The engine runs what it decodes at `pc`. -/
theorem runInstr_of_decode {s : State} {i : Instr} {rest : List Byte} (hd : decode s.codeBytes = .ok (i, rest)) :
    s.runInstr = exec i s := by
  simp [State.runInstr, fetchInstr_of_decode hd]

/-- In a single-step call the return follows the instruction. -/
theorem step_single_of_next {s t : State} {i : Instr} {rest : List Byte} (hp : s.phase = .single)
    (hd : decode s.codeBytes = .ok (i, rest)) (he : exec i s = .next t) : step s = .next t.endSingle := by
  simp [step_single hp, State.runSingle, runInstr_of_decode hd, he]

/-- Settles O27: in every phase that runs an instruction, the step is the engine's turn. -/
theorem stepRunsDecodedInstruction : Obligations.StepRunsDecodedInstruction := by
  intro s i rest hd
  refine ⟨fun hp hi => ?_, fun more hp hi => ?_, fun t hp he => step_single_of_next hp hd he, fun f hp he => ?_⟩
  · rw [step_run hp hi, runInstr_of_decode hd]
  · have hd' : decode (s.setInputs more).codeBytes = .ok (i, rest) := by simpa using hd
    have hturn : (s.setInputs more).engineTurn = (s.setInputs more).runInstr := by simp [State.engineTurn, hp]
    rw [step_action (by simp [hp]) hi]
    exact hturn.trans (runInstr_of_decode hd')
  · exact step_of_runInstr_fault (.inr hp) ((runInstr_of_decode hd).trans he)

/-- The code bytes begin with what the cells from `pc` on hold, as far as three bytes reach. -/
theorem isPrefix_codeBytes_of_cells {s : State} {bs : List Byte} (hlen : bs.length ≤ 3)
    (h : ∀ (k : Nat) (hk : k < bs.length), s.pc.toNat + k < 512 ∧ Memory.read s.mem (s.pc.toNat + k) = bs[k]) :
    bs <+: s.codeBytes := by
  have hfits : bs.length ≤ 512 - s.pc.toNat := by
    by_contra hlt
    obtain ⟨hk, -⟩ := h (bs.length - 1) (by omega)
    omega
  refine List.prefix_iff_getElem.2 ⟨by rw [codeBytes_length]; omega, fun k hk => ?_⟩
  obtain ⟨-, hread⟩ := h k hk
  simp [codeBytes_eq, hread]

/-- An instruction has at most three bytes (R70). -/
theorem length_encode_le_three (i : Instr) : (encode i).length ≤ 3 := by
  have := consumedOperands_le_two (leadByte i.width i.sel i.opcode)
  simp only [encode, List.length_cons, length_operandBytes]
  omega

/-- Settles O28: the code bytes begin with the encoding, and decoding it gives the instruction back. -/
theorem stepRunsEncodedInstruction : Obligations.StepRunsEncodedInstruction := by
  intro s i hp hi hcells
  obtain ⟨rest, hrest⟩ := isPrefix_codeBytes_of_cells (length_encode_le_three i) hcells
  have hd : decode s.codeBytes = .ok (i, rest) := hrest ▸ decodeEncodeRoundTrip i rest
  rw [step_run hp hi, runInstr_of_decode hd]

/-! ### The start of an invocation, R101, R102 and R104 -/

/-- The entry hook neither reads nor writes `paused`. -/
theorem enterPending_setPaused (value : Bool) (s : State) :
    (s.setPaused value).enterPending = s.enterPending.setPaused value := by
  by_cases hs : s.irqState = .pending
  · rw [enterPending_of_pending hs, enterPending_of_pending (by exact hs)]
    cases hm : findMarker s.mem s.irqVec with
    | none | some =>
      simp only [State.interruptEntry, setAck_mem, setAck_irqVec, setPaused_mem, setPaused_irqVec, hm]
      rfl
  · rw [enterPending_of_not_pending hs, enterPending_of_not_pending (by exact hs)]
    rfl

/-- Settles O29: a paused run-mode invocation writes `pausedAck`, and the single-step call commutes with the flag. -/
theorem pausedRunOnlyAcknowledges : Obligations.PausedRunOnlyAcknowledges := by
  refine ⟨fun s rest hs hpaused => ?_, fun s rest hs => ?_⟩
  · rw [step_runInvocationNext hs, beginRun_of_paused (by exact hpaused)]
    rfl
  · refine ⟨_, step_singleStepNext hs, by simp, by simp, ?_⟩
    have hs' : SingleStepNext (s.setPaused !s.paused) rest := hs
    have hcomm := enterPending_setPaused (!s.paused) (s.setInputs rest)
    calc step (s.setPaused !s.paused)
      _ = .next (((s.setInputs rest).setPaused !s.paused).beginSingle.setView .stepped) := step_singleStepNext hs'
      _ = .next (((s.setInputs rest).beginSingle.setView .stepped).setPaused !s.paused) := by
        rw [State.beginSingle, hcomm]; rfl
      _ = _ := by simp [State.setPaused]

/-- Settles O30: steps 2 and 3 leave `pausedAck` 0, and a paused run-mode invocation writes 1. -/
theorem passingInvocationClearsAck : Obligations.PassingInvocationClearsAck := by
  refine ⟨fun s rest hs hpaused => ?_, fun s rest hs => ?_, fun s rest hs hpaused _ => ?_⟩
  · exact ⟨_, step_runInvocationNext hs, by simp [hpaused], by simp [beginRun_of_not_paused, hpaused]⟩
  · exact ⟨_, step_singleStepNext hs, by simp, by simp⟩
  · have hidle : s.phase = .idle := hs.1
    exact ⟨_, step_runInvocationNext hs, by simp [hpaused], by simp [beginRun_of_paused, hpaused, hidle]⟩

/-- No instruction takes a pending request. -/
theorem exec_next_pending {i : Instr} {s t : State} (h : exec i s = .next t) (hs : s.irqState = .pending) :
    t.irqState = .pending := by
  rcases exec_next_irqState h with ht | ⟨-, hon, -⟩
  · exact ht.trans hs
  · simp [hs] at hon

/-- Of the host's actions only `Reset` takes a pending request. -/
theorem perform_next_pending {s t : State} {a : Action} (ha : a.isTurn = false) (h : State.perform a s = .next t)
    (hs : s.irqState = .pending) : t.irqState = .pending ∨ ∃ image, a = .reset image := by
  cases a with
  | tick | engine | singleStep => cases ha
  | reset image => exact .inr ⟨image, rfl⟩
  | requestInterrupt =>
    obtain ⟨-, rfl⟩ := perform_next_cases h
    exact .inl (by simp [State.requestInterrupt, hs])
  | setPause | readAck =>
    obtain ⟨-, rfl⟩ := perform_next_cases h
    exact .inl hs
  | setBrightness =>
    cases h
    exact .inl hs
  | inspect | writeGeneral | writeGeneralByte | writeOutput | writeOutputByte | writeCell =>
    obtain ⟨-, -, rfl⟩ := perform_next_cases h
    exact .inl hs

/-- A run-mode invocation that takes a pending request has passed the pause check. -/
theorem not_paused_of_beginRun_leaves_pending {s : State} (hs : s.irqState = .pending)
    (ht : s.beginRun.irqState ≠ .pending) : s.paused = false := by
  by_contra hpaused
  rw [beginRun_of_paused (by simpa using hpaused)] at ht
  exact ht hs

/-- A step that takes a pending request is the start of an invocation that passes step 1, or `Reset`. -/
theorem step_leaves_pending {s t : State} (hs : s.irqState = .pending) (h : step s = .next t)
    (ht : t.irqState ≠ .pending) :
    (∃ rest, RunInvocationNext s rest ∧ s.paused = false) ∨ (∃ rest, SingleStepNext s rest) ∨
      ∃ image rest, s.inputs = .reset image :: rest := by
  rcases step_next_cases h with ⟨-, i, u, -, he, rfl⟩ | ⟨-, -, i, -, he⟩ | ⟨hp, hi, rfl⟩ | ⟨hp, a, rest, hi, ha⟩
  · exact absurd (exec_next_pending he hs) ht
  · exact absurd (exec_next_pending he hs) ht
  · exact .inl ⟨[], ⟨hp, .inl ⟨hi, rfl⟩⟩, not_paused_of_beginRun_leaves_pending hs ht⟩
  · cases a with
    | tick =>
      obtain ⟨hidle, rfl⟩ := perform_next_cases ha
      exact .inl ⟨rest, ⟨hidle, .inr hi⟩, not_paused_of_beginRun_leaves_pending (s := s.setInputs rest) hs ht⟩
    | singleStep =>
      obtain ⟨hidle, hv, -⟩ := perform_next_cases ha
      exact .inr (.inl ⟨rest, hidle, hv, hi⟩)
    | engine =>
      rcases perform_next_cases ha with ⟨-, rfl⟩ | ⟨-, i, -, he⟩ | ⟨hsingle, -⟩
      · exact absurd hs ht
      · exact absurd (exec_next_pending he hs) ht
      · exact absurd hsingle hp
    | _ =>
      rcases perform_next_pending rfl ha hs with hkept | ⟨image, hreset⟩
      · exact absurd hkept ht
      · exact .inr (.inr ⟨image, rest, hreset ▸ hi⟩)

/-- Settles O31: both kinds of invocation are steps 2 and 3 and the progress of the call, and no other step but `Reset`
takes a request. -/
theorem entryHookAtInvocationStart : Obligations.EntryHookAtInvocationStart := by
  refine ⟨fun s rest hs hpaused => ?_, fun s rest hs => ?_, fun s t hs h ht => step_leaves_pending hs h ht⟩
  · rw [step_runInvocationNext hs, beginRun_of_not_paused (by exact hpaused)]
    refine ⟨fun hirq => ?_, fun hirq => ?_⟩
    · rw [enterPending_of_pending (by exact hirq)]; rfl
    · rw [enterPending_of_not_pending (by exact hirq)]; rfl
  · rw [step_singleStepNext hs, State.beginSingle]
    refine ⟨fun hirq => ?_, fun hirq => ?_⟩
    · rw [enterPending_of_pending (by exact hirq)]; rfl
    · rw [enterPending_of_not_pending (by exact hirq)]; rfl

/-! ### The single-step call, R108 and R110 -/

theorem advance_setPhase (n : Nat) (p : Phase) (s : State) :
    (s.setPhase p).advance n = (s.advance n).setPhase p := rfl

theorem decrementJump_setPhase (sel : Sel) (offset : Word) (p : Phase) (s : State) :
    (s.setPhase p).decrementJump sel offset = (s.decrementJump sel offset).setPhase p := by
  by_cases hz : s.g.readWord sel - 1 = 0 <;>
    (simp only [State.decrementJump, State.jumpUnlessZero, setGeneral_g, setPhase_g, Bank.readWord_writeWord_same, hz,
      if_true, if_false]; rfl)

theorem redirectReturn_setPhase (target : Word) (p : Phase) (s : State) :
    (s.setPhase p).redirectReturn target = (s.redirectReturn target).setPhase p := by
  by_cases hs : s.irqState = .ongoing
  · simp only [State.redirectReturn, setPhase_irqState, hs]; rfl
  · rw [redirectReturn_of_not_ongoing hs, redirectReturn_of_not_ongoing (by exact hs)]

/-- An instruction does not read the phase: in another phase it does the same to everything else. -/
theorem exec_setPhase {i : Instr} {s t : State} (p : Phase) (h : exec i s = .next t) :
    ∃ q, exec i (s.setPhase p) = .next (t.setPhase q) := by
  cases i with
  | stop | commit | wait => cases h; exact ⟨.idle, rfl⟩
  | drjnzB | drjnzW =>
    cases h
    exact ⟨p, by simp only [exec, execDrjnzB, execDrjnzW, advance_setPhase, decrementJump_setPhase]⟩
  | isetpcB | isetpcW =>
    cases h
    exact ⟨p, by simp only [exec, execIsetpcB, execIsetpcW, advance_setPhase, redirectReturn_setPhase]⟩
  | iret =>
    refine ⟨p, ?_⟩
    rcases execIret_next h with ⟨hs, rfl⟩ | ⟨hs, rfl⟩
    · simp only [exec, execIret, setPhase_irqState, hs]; rfl
    · cases hirq : s.irqState with
      | ongoing => exact absurd hirq hs
      | none | pending => simp only [exec, execIret, setPhase_irqState, hirq]; rfl
  | reservedC | reservedD | reservedE | reservedF => cases h
  | _ => cases h; exact ⟨p, rfl⟩

/-- Settles O32: the instruction does in the call what it does in run mode, and `endSingle` is the rest of the call. -/
theorem singleStepExecutesOne : Obligations.SingleStepExecutesOne := by
  refine ⟨fun s i rest hp hd hi => ?_, fun s rest hs => ⟨_, step_singleStepNext hs, by simp⟩⟩
  obtain ⟨t, he⟩ := exec_of_wellFormed s hi
  obtain ⟨q, hrun⟩ := exec_setPhase .run he
  exact ⟨t.endSingle, t.setPhase q, step_single_of_next hp hd he, rfl, hrun, fun _ => rfl, fun _ => rfl,
    ⟨rfl, rfl, rfl, rfl, rfl⟩, ⟨fun _ => rfl, fun _ => rfl, rfl⟩, fun _ => rfl, rfl, rfl, rfl, rfl,
    fun hdiag => by simp [hdiag], fun hdiag => by simp [hdiag]⟩

end Sys2Proof.Machine
end

section
/-! The register and output family: where an operand fetch stops, the one bank word that SETREG, SETOUT and MODOUT
write with its frame, and the signed add of MODOUT (41_register_output.md). -/

namespace Sys2Proof.Machine

/-! ### The operand fetch at 512, R58 -/

/-- An operand fetch of a valid opcode stops with `pc` at 512, after what precedes the operand. -/
theorem operandFetchStops_beforeOperands {op : Opcode} (hvalid : op.valid = true) :
    OperandFetchStops op fun lead s => State.beforeOperands lead (stoppedAtEnd lead s) := by
  intro s hp hi hpc hop hlen
  rw [← consumedOperands_of_valid (hop ▸ hvalid)] at hlen
  exact step_of_fetchInstr_error (.inl ⟨hp, hi⟩) (fetchInstr_truncated hpc hlen)

/-- Every valid opcode but DRJNZ has written nothing when its operand fetch stops. -/
theorem operandFetchStops_stoppedAtEnd {op : Opcode} (hvalid : op.valid = true) (hop : op ≠ .drjnz) :
    OperandFetchStops op stoppedAtEnd := by
  intro s hp hi hpc hlead hlen
  have hne : leadOpcode (Memory.read s.mem s.pc.toNat) ≠ .drjnz := hlead ▸ hop
  simpa only [beforeOperands_of_ne_drjnz _ hne] using
    operandFetchStops_beforeOperands hvalid s hp hi hpc hlead hlen

/-! ### A write of one bank word, R120 to R123 -/

/-- New banks and a new `pc` leave everything else. -/
theorem keepsAllButBanks_update (s : State) (g o : Bank) (pc : Word) :
    KeepsAllButBanks s { s with g := g, o := o, pc := pc } :=
  ⟨⟨rfl, rfl, rfl, rfl, rfl⟩, ⟨fun _ => rfl, fun _ => rfl, rfl⟩, fun _ => rfl, ⟨rfl, rfl, rfl, rfl⟩, rfl⟩

/-- The advance over `n` cells and a write of the general register `sel` do nothing else. -/
theorem advance_setGeneral_effect (n : Nat) (sel : Sel) (v : Word) (s : State) :
    let t := (s.advance n).setGeneral sel v
    t.g.readWord sel = v ∧ (∀ j, j ≠ sel → t.g.readWord j = s.g.readWord j) ∧ t.pc = s.pc + BitVec.ofNat 16 n ∧
      KeepsOutput s t ∧ KeepsAllButBanks s t :=
  ⟨s.g.readWord_writeWord_same sel v, fun _ hj => s.g.readWord_writeWord_other v hj, rfl, fun _ => rfl,
    keepsAllButBanks_update s _ _ _⟩

/-- The advance over `n` cells and a write of the output register `sel` do nothing else. -/
theorem advance_setOutput_effect (n : Nat) (sel : Sel) (v : Word) (s : State) :
    let t := (s.advance n).setOutput sel v
    t.o.readWord sel = v ∧ (∀ j, j ≠ sel → t.o.readWord j = s.o.readWord j) ∧ t.pc = s.pc + BitVec.ofNat 16 n ∧
      KeepsGeneral s t ∧ KeepsAllButBanks s t :=
  ⟨s.o.readWord_writeWord_same sel v, fun _ hj => s.o.readWord_writeWord_other v hj, rfl, fun _ => rfl,
    keepsAllButBanks_update s _ _ _⟩

/-- Settles O11: both forms write one general register, and `zext16` keeps the immediate's value. -/
theorem setregWritesImmediate : Obligations.SetregWritesImmediate := by
  refine ⟨fun s sel imm => ?_, fun s sel imm => ⟨_, rfl, advance_setGeneral_effect 3 sel imm s⟩,
    operandFetchStops_stoppedAtEnd rfl (by decide)⟩
  obtain ⟨hsel, hframe⟩ := advance_setGeneral_effect 2 sel (zext16 imm) s
  exact ⟨_, rfl, by rw [hsel, toNat_zext16], hframe⟩

/-- Settles O12: both forms write one output register, and `outByteForm` is the immediate times 256. -/
theorem setoutWritesImmediate : Obligations.SetoutWritesImmediate := by
  refine ⟨fun s sel imm => ?_, fun s sel imm => ⟨_, rfl, advance_setOutput_effect 3 sel imm s⟩,
    operandFetchStops_stoppedAtEnd rfl (by decide)⟩
  obtain ⟨hsel, hframe⟩ := advance_setOutput_effect 2 sel (outByteForm imm) s
  exact ⟨_, rfl, by rw [hsel, toNat_outByteForm], hframe⟩

/-! ### The signed add, R122 -/

/-- A 16-bit add is the add of the signed second operand modulo 65536. -/
theorem toNat_add_eq_emod_toInt (a b : Word) : ((a + b).toNat : Int) = (a.toNat + b.toInt) % 65536 := by
  rw [BitVec.toNat_add, BitVec.toInt_eq_toNat_cond]
  split <;> omega

/-- Settles O13: both forms write the 16-bit sum to one output register, and `sext16` keeps the signed immediate. -/
theorem modoutAddsSignedImmediate : Obligations.ModoutAddsSignedImmediate := by
  refine ⟨fun s sel imm => ?byteForm, fun s sel imm => ?wordForm, operandFetchStops_stoppedAtEnd rfl (by decide)⟩
  case byteForm =>
    obtain ⟨hsel, hframe⟩ := advance_setOutput_effect 2 sel (s.o.readWord sel + sext16 imm) s
    refine ⟨(s.advance 2).setOutput sel (s.o.readWord sel + sext16 imm), rfl, ?_, hframe⟩
    rw [hsel, toNat_add_eq_emod_toInt, toInt_sext16]
  case wordForm =>
    obtain ⟨hsel, hframe⟩ := advance_setOutput_effect 3 sel (s.o.readWord sel + imm) s
    refine ⟨(s.advance 3).setOutput sel (s.o.readWord sel + imm), rfl, ?_, ?_, hframe⟩
    · rw [hsel, toNat_add_eq_emod_toInt]
    · rw [hsel, BitVec.toNat_add]

end Sys2Proof.Machine
end

section
/-! The blocking family: what STOP, COMMIT and WAIT leave unchanged, and the duty that COMMIT delivers
(42_blocking.md). -/

namespace Sys2Proof.Machine

/-! ### The frame of a blocking instruction, R107 -/

/-- What the three blocking instructions write (`pc`, `paused`, the phase, the events) is no register and no cell. -/
theorem keepsBanksSavedMemory_update (s : State) (pc : Word) (paused : Bool) (phase : Phase) (outputs : List Event) :
    let t := { s with pc := pc, paused := paused, phase := phase, outputs := outputs }
    KeepsGeneral s t ∧ KeepsOutput s t ∧ KeepsSaved s t ∧ KeepsMemory s t :=
  ⟨fun _ => rfl, fun _ => rfl, ⟨fun _ => rfl, fun _ => rfl, rfl⟩, fun _ => rfl⟩

/-! ### STOP, R130 -/

/-- Settles O14: STOP leaves `paused` 1, and a paused run-mode invocation only acknowledges (O29). -/
theorem stopSetsPausedAndReturns : Obligations.StopSetsPausedAndReturns := by
  intro s
  obtain ⟨hgeneral, houtput, hsaved, hmem⟩ := keepsBanksSavedMemory_update s (s.pc + 1) true .idle s.outputs
  obtain ⟨hpausedRun, -⟩ := pausedRunOnlyAcknowledges
  exact ⟨((s.advance 1).setPaused true).endInvocation, rfl, rfl, rfl, rfl, rfl, hgeneral, houtput, rfl, rfl, rfl,
    hsaved, hmem, ⟨rfl, rfl, rfl, rfl⟩, fun rest hnext => hpausedRun _ rest hnext rfl⟩

/-! ### WAIT, R131 -/

/-- Settles O15: WAIT is the advance of `pc` and the return. -/
theorem waitOnlyReturns : Obligations.WaitOnlyReturns := by
  intro s
  obtain ⟨hgeneral, houtput, hsaved, hmem⟩ := keepsBanksSavedMemory_update s (s.pc + 1) s.paused .idle s.outputs
  exact ⟨(s.advance 1).endInvocation, rfl, rfl, rfl, hgeneral, houtput, ⟨rfl, rfl, rfl, rfl, rfl⟩, hsaved, hmem,
    ⟨rfl, rfl, rfl, rfl⟩⟩

/-! ### The duty and COMMIT, R132 and R133 -/

/-- The product of two bytes is at most 255 * 255. -/
theorem toNat_mul_toNat_le (a b : Byte) : a.toNat * b.toNat ≤ 65025 :=
  Nat.mul_le_mul (Nat.le_of_lt_succ a.isLt) (Nat.le_of_lt_succ b.isLt)

/-- Settles O17: the bounds and the boundary cases follow from the floor, `toNat_duty`. -/
theorem dutyIsFloorOfProduct : Obligations.DutyIsFloorOfProduct := by
  intro out brightness
  have hfloor := toNat_duty out brightness
  have hprod := toNat_mul_toNat_le (hi8 out) (hi8 brightness)
  refine ⟨hfloor, hprod, by omega, fun hfull => ?full, fun hzero => ?zero⟩
  case full =>
    rw [hfull] at hfloor
    omega
  case zero =>
    have hprod_zero := Nat.mul_eq_zero.2 hzero
    exact BitVec.eq_of_toNat_eq (by simp [hfloor, hprod_zero])

/-- The duty in terms of the whole register and the whole brightness. -/
theorem toNat_duty_eq_div (out brightness : Word) :
    (duty out brightness).toNat = (out.toNat / 256) * (brightness.toNat / 256) / 256 := by
  rw [toNat_duty, toNat_hi8, toNat_hi8]

/-- Settles O16: the event carries the duties of the output words 0 to 2. -/
theorem commitEmitsDuties : Obligations.CommitEmitsDuties := by
  intro s
  obtain ⟨hgeneral, houtput, hsaved, hmem⟩ := keepsBanksSavedMemory_update s (s.pc + 1) s.paused .idle
    (.commit (duty s.o.w0 s.brightness) (duty s.o.w1 s.brightness) (duty s.o.w2 s.brightness) :: s.outputs)
  exact ⟨_, duty s.o.w0 s.brightness, duty s.o.w1 s.brightness, duty s.o.w2 s.brightness, rfl, rfl,
    toNat_duty_eq_div _ _, toNat_duty_eq_div _ _, toNat_duty_eq_div _ _, rfl, rfl, hgeneral, houtput,
    ⟨rfl, rfl, rfl, rfl, rfl⟩, hsaved, hmem, rfl, rfl, rfl⟩

end Sys2Proof.Machine
end

section
/-! The control transfer family: the jump target, DRJNZ's decrement and test, the one operand byte of JMP, and the
unchecked target of JMPABS (43_control_transfer.md). -/

namespace Sys2Proof.Machine

/-! ### The jump target, R143 -/

/-- A signed offset counts from the address after the `n` cells of the instruction, modulo 65536. -/
theorem toNat_jumpTarget (pc offset : Word) (n : Nat) :
    ((pc + BitVec.ofNat 16 n + offset).toNat : Int) = (pc.toNat + n + offset.toInt) % 65536 := by
  rw [toNat_add_eq_emod_toInt, BitVec.toNat_add, BitVec.toNat_ofNat]
  omega

/-- A new `pc` leaves everything else. -/
theorem keepsAllButPc_update (s : State) (pc : Word) :
    let t := { s with pc := pc }
    KeepsGeneral s t ∧ KeepsOutput s t ∧ KeepsAllButBanks s t :=
  ⟨fun _ => rfl, fun _ => rfl, keepsAllButBanks_update s s.g s.o pc⟩

/-! ### DRJNZ, R140 -/

/-- DRJNZ writes its register and `pc`; the decremented value is zero exactly if the register was 1. -/
theorem decrementJump_eq (sel : Sel) (offset : Word) (s : State) :
    s.decrementJump sel offset =
      { s with
        g := s.g.writeWord sel (s.g.readWord sel - 1)
        pc := if s.g.readWord sel = 1 then s.pc else s.pc + offset } := by
  by_cases h : s.g.readWord sel = 1 <;>
    (simp only [State.decrementJump, State.jumpUnlessZero, setGeneral_g, Bank.readWord_writeWord_same, sub_eq_zero, h,
      if_true, if_false]; rfl)

/-- What both forms of DRJNZ do, with `n` the cells of the form. -/
theorem advance_decrementJump_effect (n : Nat) (sel : Sel) (offset : Word) (s : State) :
    let t := (s.advance n).decrementJump sel offset
    t.g.readWord sel = s.g.readWord sel - 1 ∧ (∀ j, j ≠ sel → t.g.readWord j = s.g.readWord j) ∧
      (s.g.readWord sel ≠ 1 → (t.pc.toNat : Int) = (s.pc.toNat + n + offset.toInt) % 65536) ∧
      (s.g.readWord sel = 1 → t.pc = s.pc + BitVec.ofNat 16 n) ∧ KeepsOutput s t ∧ KeepsAllButBanks s t := by
  rw [decrementJump_eq]
  intro t
  have hpc : t.pc = if s.g.readWord sel = 1 then s.pc + BitVec.ofNat 16 n else s.pc + BitVec.ofNat 16 n + offset := rfl
  refine ⟨Bank.readWord_writeWord_same _ _ _, fun _ hj => Bank.readWord_writeWord_other _ _ hj, fun htaken => ?taken,
    fun hone => ?notTaken, fun _ => rfl, keepsAllButBanks_update s _ _ _⟩
  case taken => rw [hpc, if_neg htaken, toNat_jumpTarget]
  case notTaken => rw [hpc, if_pos hone]

/-- Settles O18: one effect lemma serves both forms, and the operand fetch that stops comes after the decrement. -/
theorem drjnzDecrementsAndJumps : Obligations.DrjnzDecrementsAndJumps := by
  refine ⟨fun s sel offset => ⟨_, rfl, ?byteForm⟩,
    fun s sel offset => ⟨_, rfl, advance_decrementJump_effect 3 sel offset s⟩, ?operandFetch⟩
  case byteForm => exact toInt_sext16 offset ▸ advance_decrementJump_effect 2 sel (sext16 offset) s
  case operandFetch =>
    intro s hp hi hpc hlead hlen
    have hstop := operandFetchStops_beforeOperands rfl s hp hi hpc hlead hlen
    simp only [beforeOperands_of_drjnz _ hlead] at hstop
    exact hstop

/-! ### JMP, R141 -/

/-- JMP takes one operand byte, whatever W is. -/
theorem decode_of_jmp {b : Byte} (h : leadOpcode b = .jmp) (x : Byte) (rest : List Byte) :
    decode (b :: x :: rest) = .ok (.jmp x, rest) := by
  simp [decode_cons_eq_ok_iff, consumedOperands, Opcode.valid, leadOperandLen, operandLen, assemble, h]

/-- Settles O19: the target is counted from the address after the one operand byte that every W leaves JMP. -/
theorem jmpAddsSignedOffset : Obligations.JmpAddsSignedOffset := by
  refine ⟨fun s offset => ⟨(s.advance 2).jumpBy (sext16 offset), rfl, ?target, keepsAllButPc_update s _⟩,
    fun b x rest hop => decode_of_jmp hop x rest, operandFetchStops_stoppedAtEnd rfl (by decide)⟩
  case target => exact toInt_sext16 offset ▸ toNat_jumpTarget s.pc (sext16 offset) 2

/-! ### JMPABS, R142 -/

/-- Settles O20: `pc` takes the operand unchecked, so that the next fetch of the burst is what stops. -/
theorem jmpabsLoadsAddress : Obligations.JmpabsLoadsAddress := by
  refine ⟨fun s addr => ⟨(s.advance 2).setPc (zext16 addr), rfl, toNat_zext16 addr, keepsAllButPc_update s _⟩,
    fun s addr => ?wordForm, operandFetchStops_stoppedAtEnd rfl (by decide)⟩
  case wordForm =>
    obtain ⟨hgeneral, houtput, hkeep⟩ := keepsAllButPc_update s addr
    exact ⟨(s.advance 3).setPc addr, rfl, rfl, hgeneral, houtput, hkeep,
      fun haddr hp hi => step_of_fetchInstr_error (.inl ⟨hp, hi⟩) (fetchInstr_outside haddr)⟩

end Sys2Proof.Machine
end

section
/-! The interrupt instruction family: the one word that ISETPC redirects, the two cases of IRET, and the banks after an
instruction as a function of the banks before it (44_interrupt_instructions.md). -/

namespace Sys2Proof.Machine

/-! ### IVEC, R150 -/

/-- Settles O21: IVEC is the advance of `pc`. -/
theorem ivecIsNoOp : Obligations.IvecIsNoOp :=
  fun s _ => ⟨s.advance 1, rfl, rfl, keepsAllButPc_update s _⟩

/-! ### ISETPC, R151 -/

/-- While ONGOING ISETPC loads the saved program counter. -/
theorem redirectReturn_of_ongoing {target : Word} {s : State} (h : s.irqState = .ongoing) :
    s.redirectReturn target = s.setSpc target := by
  simp only [State.redirectReturn, h]

/-- ISETPC's load writes at most `spc`, and does so exactly while ONGOING. -/
theorem redirectReturn_eq (target : Word) (s : State) :
    s.redirectReturn target = { s with spc := if s.irqState = .ongoing then target else s.spc } := by
  by_cases hs : s.irqState = .ongoing
  · rw [redirectReturn_of_ongoing hs, if_pos hs]
    rfl
  · rw [redirectReturn_of_not_ongoing hs, if_neg hs]

/-- What both forms of ISETPC do, with `n` the cells of the form. -/
theorem advance_redirectReturn_effect (n : Nat) (target : Word) (s : State) :
    let t := (s.advance n).redirectReturn target
    t.pc = s.pc + BitVec.ofNat 16 n ∧ (s.irqState = .ongoing → t.spc = target) ∧
      (s.irqState ≠ .ongoing → t.spc = s.spc) ∧ KeepsGeneral s t ∧ KeepsOutput s t ∧ KeepsControl s t ∧
      (∀ i, t.sg.readWord i = s.sg.readWord i) ∧ (∀ i, t.so.readWord i = s.so.readWord i) ∧ KeepsMemory s t ∧
      KeepsOutside s t ∧ t.phase = s.phase := by
  rw [redirectReturn_eq]
  exact ⟨rfl, fun hs => if_pos hs, fun hs => if_neg hs, fun _ => rfl, fun _ => rfl, ⟨rfl, rfl, rfl, rfl, rfl⟩,
    fun _ => rfl, fun _ => rfl, fun _ => rfl, ⟨rfl, rfl, rfl, rfl⟩, rfl⟩

/-- Settles O22: one effect lemma serves both forms, and `zext16` keeps the byte operand's value. -/
theorem isetpcRedirectsOnlyWhileOngoing : Obligations.IsetpcRedirectsOnlyWhileOngoing := by
  refine ⟨fun s addr => ?byteForm, fun s addr => ⟨_, rfl, advance_redirectReturn_effect 3 addr s⟩,
    operandFetchStops_stoppedAtEnd rfl (by decide)⟩
  case byteForm =>
    obtain ⟨hpc, hongoing, hframe⟩ := advance_redirectReturn_effect 2 (isetpcTargetB addr) s
    exact ⟨_, rfl, hpc, fun hs => by rw [hongoing hs, isetpcTargetB, toNat_zext16], hframe⟩

/-! ### IRET, R152 -/

/-- Settles O23: the frame is that of every instruction (O25), and the interrupt state decides between the return and
the advance. -/
theorem iretRestoresOnlyWhileOngoing : Obligations.IretRestoresOnlyWhileOngoing := by
  intro s
  obtain ⟨t, h⟩ := exec_of_wellFormed (i := .iret) s rfl
  obtain ⟨hmem, hack, hvec, harg, hsaved, hbright, hview, hinputs, hpaused, -, -, hspc, houtputs, -⟩ :=
    execFrame .iret s t h
  refine ⟨t, h, fun hs => ?ongoing, fun hs => ?notOngoing, hpaused (by decide), hack, hvec, harg,
    ⟨fun j => (hsaved j).1, fun j => (hsaved j).2, hspc (by decide)⟩, hmem,
    ⟨hbright, hview, hinputs, houtputs (by decide)⟩, exec_next_phase_of_not_blocking h (by decide)⟩
  case ongoing =>
    rcases execIret_next h with ⟨-, rfl⟩ | ⟨hne, -⟩
    · exact ⟨fun _ => rfl, fun _ => rfl, rfl, rfl⟩
    · exact absurd hs hne
  case notOngoing =>
    rcases execIret_next h with ⟨hongoing, -⟩ | ⟨-, rfl⟩
    · exact absurd hongoing hs
    · exact ⟨fun _ => rfl, fun _ => rfl, rfl, rfl⟩

/-! ### No control state in a register, R153 -/

/-- Outside a handler IRET leaves the banks to the advance, and no other instruction reads more than the banks and its
own operands for what it writes to them. -/
theorem exec_next_banks_congr {i : Instr} {s s' t t' : State} (hs : s.irqState ≠ .ongoing)
    (hs' : s'.irqState ≠ .ongoing) (hg : s'.g = s.g) (ho : s'.o = s.o) (h : exec i s = .next t)
    (h' : exec i s' = .next t') : t'.g = t.g ∧ t'.o = t.o := by
  cases i with
  | iret =>
    obtain ⟨-, rfl⟩ := (execIret_next h).resolve_left fun hret => hs hret.1
    obtain ⟨-, rfl⟩ := (execIret_next h').resolve_left fun hret => hs' hret.1
    exact ⟨hg, ho⟩
  | setregB | setregW | drjnzB | drjnzW | setoutB | setoutW | modoutB | modoutW | isetpcB | isetpcW =>
    cases h; cases h'; simp [hg, ho]
  | reservedC | reservedD | reservedE | reservedF => cases h
  | _ => cases h; cases h'; exact ⟨hg, ho⟩

/-- Settles O43: reading the same words is being the same bank. -/
theorem registersIndependentOfControlState : Obligations.RegistersIndependentOfControlState := by
  intro i s s' t t' hs hs' hgeneral houtput h h'
  obtain ⟨hg, ho⟩ :=
    exec_next_banks_congr hs hs' (Bank.eq_of_readWord_eq hgeneral) (Bank.eq_of_readWord_eq houtput) h h'
  exact ⟨fun j => by rw [hg], fun j => by rw [ho]⟩

end Sys2Proof.Machine
end

section
/-! The interrupt controller and the pause handshake: the vector scan as the first marker of its path, the two answers
of the entry, the actions that fall between two instructions, and the writers of `pausedAck` (60_exceptions.md). -/

namespace Sys2Proof.Machine

/-! ### The path of the vector scan, R163 -/

/-- A path that leaves the 512 cells has left by at most an instruction with two operand bytes in cell 511. -/
theorem OnScanPath.le_514 {m : Memory} {a : Nat} (h : OnScanPath m a) : a ≤ 514 := by
  cases h with
  | start => omega
  | next a _ ha =>
    have hlen : leadOperandLen (Memory.read m a) ≤ 2 := operandLen_le_two _ _
    omega

/-- From an address of the path the scan answers an address of the path. -/
theorem OnScanPath.of_vectorScan_eq_some {m : Memory} {marker : Byte} {fuel a c : Nat} (hpath : OnScanPath m a)
    (h : vectorScan m marker fuel a = some c) : OnScanPath m c := by
  induction fuel generalizing a with
  | zero => cases h
  | succ n ih =>
    by_cases ha : a < 512
    · by_cases hm : Memory.read m a = marker
      · rw [vectorScan_match ha hm] at h
        cases h
        exact hpath
      · rw [vectorScan_skip ha hm] at h
        exact ih (hpath.next a ha) h
    · rw [vectorScan_outside (by omega)] at h
      cases h

/-- The scan reads the 512 cells alone. -/
theorem vectorScan_congr {m n : Memory} (h : ∀ a, a < 512 → Memory.read n a = Memory.read m a) (marker : Byte)
    (fuel a : Nat) : vectorScan n marker fuel a = vectorScan m marker fuel a := by
  induction fuel generalizing a with
  | zero => rfl
  | succ k ih =>
    by_cases ha : a < 512
    · by_cases hm : Memory.read m a = marker
      · rw [vectorScan_match ha hm, vectorScan_match ha ((h a ha).trans hm)]
      · rw [vectorScan_skip ha hm, vectorScan_skip ha (by rwa [h a ha]), h a ha, ih]
    · rw [vectorScan_outside (by omega), vectorScan_outside (by omega)]

/-- The scan reaches an address of its path that no marker precedes. -/
theorem OnScanPath.findMarker_eq_vectorScan {m : Memory} {v : BitVec 2} {a : Nat} (hpath : OnScanPath m a)
    (hfirst : ∀ c, OnScanPath m c → c < a → Memory.read m c ≠ markerByte v) :
    findMarker m v = vectorScan m (markerByte v) 512 a := by
  induction hpath with
  | start => rfl
  | next a hpath ha ih =>
    calc findMarker m v
      _ = vectorScan m (markerByte v) (511 + 1) a := ih fun c hc hlt => hfirst c hc (by omega)
      _ = vectorScan m (markerByte v) 511 (a + 1 + leadOperandLen (Memory.read m a)) :=
        vectorScan_skip ha (hfirst a hpath (by omega))
      _ = _ := (vectorScan_fuel (by omega) 1).symm

/-- The scan answers a marker of its path that no marker precedes. -/
theorem OnScanPath.findMarker_eq_some {m : Memory} {v : BitVec 2} {a : Nat} (hpath : OnScanPath m a) (ha : a < 512)
    (hm : Memory.read m a = markerByte v)
    (hfirst : ∀ c, OnScanPath m c → c < a → Memory.read m c ≠ markerByte v) : findMarker m v = some a :=
  (hpath.findMarker_eq_vectorScan hfirst).trans (vectorScan_match ha hm)

/-- Where the path holds a marker the scan answers, at that marker or before it. -/
theorem OnScanPath.exists_findMarker_le {m : Memory} {v : BitVec 2} {a : Nat} (hpath : OnScanPath m a) (ha : a < 512)
    (hm : Memory.read m a = markerByte v) : ∃ c, c ≤ a ∧ findMarker m v = some c := by
  induction a using Nat.strong_induction_on with
  | h a ih =>
    by_cases hlower : ∃ c, OnScanPath m c ∧ c < a ∧ Memory.read m c = markerByte v
    · obtain ⟨c, hc, hlt, hmc⟩ := hlower
      obtain ⟨d, hd, hfind⟩ := ih c hlt hc (by omega) hmc
      exact ⟨d, by omega, hfind⟩
    · exact ⟨a, le_rfl, hpath.findMarker_eq_some ha hm fun c hc hlt hmc => hlower ⟨c, hc, hlt, hmc⟩⟩

/-- What the scan answers is a marker of its path in the memory. -/
theorem onScanPath_of_findMarker_eq_some {m : Memory} {v : BitVec 2} {a : Nat} (h : findMarker m v = some a) :
    OnScanPath m a ∧ a < 512 ∧ Memory.read m a = markerByte v :=
  ⟨OnScanPath.start.of_vectorScan_eq_some h, read_of_vectorScan_eq_some h⟩

/-- Settles O36: the scan reaches every address of the path that no marker precedes, and answers nowhere else. -/
theorem vectorScanFindsFirstMarker : Obligations.VectorScanFindsFirstMarker := by
  intro m v
  refine ⟨fun a => ⟨fun h => ?sound, fun ⟨hpath, ha, hm, hfirst⟩ => hpath.findMarker_eq_some ha hm hfirst⟩,
    ⟨fun h a hpath ha hm => ?noMarker, fun h => ?noAnswer⟩, fun a hpath => hpath.le_514,
    fun n hn => vectorScan_congr hn _ _ _⟩
  case sound =>
    obtain ⟨hpath, ha, hm⟩ := onScanPath_of_findMarker_eq_some h
    refine ⟨hpath, ha, hm, fun c hc hlt hmc => ?_⟩
    obtain ⟨d, hd, hfind⟩ := hc.exists_findMarker_le (by omega) hmc
    obtain rfl : a = d := Option.some.inj (h.symm.trans hfind)
    omega
  case noMarker =>
    obtain ⟨c, -, hfind⟩ := hpath.exists_findMarker_le ha hm
    simp [h] at hfind
  case noAnswer =>
    refine Option.eq_none_iff_forall_ne_some.2 fun a hfind => ?_
    obtain ⟨hpath, ha, hm⟩ := onScanPath_of_findMarker_eq_some hfind
    exact h a hpath ha hm

/-! ### Entry, R164 and R165 -/

/-- The entry of a request whose marker the scan finds. -/
theorem interruptEntry_of_findMarker_eq_some {s : State} {a : Nat} (h : findMarker s.mem s.irqVec = some a) :
    s.interruptEntry = s.entryFound a := by
  simp only [State.interruptEntry, h]

/-- The entry of a request whose marker the scan does not find. -/
theorem interruptEntry_of_findMarker_eq_none {s : State} (h : findMarker s.mem s.irqVec = none) :
    s.interruptEntry = s.entryNotFound := by
  simp only [State.interruptEntry, h]

/-- Settles O37: the marker's address is below 512, so `pc` holds it. -/
theorem entryFoundSavesAndVectors : Obligations.EntryFoundSavesAndVectors := by
  intro s a h
  obtain ⟨-, ha, -⟩ := onScanPath_of_findMarker_eq_some h
  have hpc : (BitVec.ofNat 16 a).toNat = a := by
    rw [BitVec.toNat_ofNat]
    omega
  rw [interruptEntry_of_findMarker_eq_some h]
  exact ⟨fun _ => rfl, fun _ => rfl, rfl, s.g.readWord_writeWord_same 0 s.irqArg,
    fun _ hi => s.g.readWord_writeWord_other s.irqArg hi, fun _ => rfl, hpc, rfl, rfl, rfl, rfl, rfl, fun _ => rfl,
    ⟨rfl, rfl, rfl, rfl⟩⟩

/-- Settles O38: the entry writes the state and the notice, and O31 gives the invocation that makes it. -/
theorem entryNotFoundDiscardsRequest : Obligations.EntryNotFoundDiscardsRequest := by
  intro s h
  obtain ⟨hrun, hsingle, -⟩ := entryHookAtInvocationStart
  rw [interruptEntry_of_findMarker_eq_none h]
  refine ⟨rfl, fun _ => rfl, fun _ => rfl, rfl, ⟨fun _ => rfl, fun _ => rfl, rfl⟩, rfl, rfl, rfl, rfl, fun _ => rfl,
    fun hdiag => by simp [hdiag], fun hdiag => by simp [hdiag], fun rest hirq hs hpaused => ?_,
    fun rest hirq hs => ?_⟩
  · refine ⟨_, (hrun s rest hs hpaused).1 hirq, ?_⟩
    rw [interruptEntry_of_findMarker_eq_none (by exact h)]
    exact ⟨rfl, rfl, rfl⟩
  · refine ⟨_, (hsingle s rest hs).1 hirq, ?_⟩
    rw [interruptEntry_of_findMarker_eq_none (by exact h)]
    exact ⟨rfl, rfl, rfl⟩

/-- Settles O39: the entry saves the banks and `pc`, and IRET while ONGOING takes them back from there (O23). -/
theorem interruptRoundTripRestores : Obligations.InterruptRoundTripRestores := by
  intro s a g o pc h
  rw [interruptEntry_of_findMarker_eq_some h]
  obtain ⟨t, hiret, hongoing, -⟩ := iretRestoresOnlyWhileOngoing { s.entryFound a with g := g, o := o, pc := pc }
  obtain ⟨hg, ho, hpc, hirq⟩ := hongoing rfl
  exact ⟨t, hiret, hg, ho, hpc, hirq⟩

/-! ### Actions between two instructions, R161, R175 and R176 -/

/-- An action that is defined after the first `Reset` falls between invocations or inside a burst (R178). -/
theorem step_of_perform_eq_afterReset {s t : State} {a : Action} {rest : List Action}
    (hp : s.phase = .idle ∨ s.phase = .run) (hi : s.inputs = a :: rest)
    (ha : State.perform a (s.setInputs rest) = (s.setInputs rest).afterReset t) : step s = .next t := by
  rw [step_action (by rcases hp with hp | hp <;> simp [hp]) hi, ha]
  rcases hp with hp | hp <;> simp [State.afterReset, hp]

/-- A request is recorded while NONE. -/
theorem requestInterrupt_of_none {s : State} (v : BitVec 2) (arg : Word) (h : s.irqState = .none) :
    s.requestInterrupt v arg = { s with irqVec := v, irqArg := arg, irqState := .pending } := by
  simp only [State.requestInterrupt, h]

/-- Any other request is dropped. -/
theorem requestInterrupt_of_ne_none {s : State} (v : BitVec 2) (arg : Word) (h : s.irqState ≠ .none) :
    s.requestInterrupt v arg = s := by
  cases hs : s.irqState <;> simp_all [State.requestInterrupt]

/-- Settles O35: the request falls between two instructions, and the interrupt state decides whether it is recorded. -/
theorem requestRecordedOrDropped : Obligations.RequestRecordedOrDropped := by
  intro s v arg rest hi hp
  rw [step_of_perform_eq_afterReset hp hi rfl]
  refine ⟨fun hs => ?_, fun hs => ?_⟩
  · rw [requestInterrupt_of_none v arg (by exact hs)]
    rfl
  · rw [requestInterrupt_of_ne_none v arg (by exact hs)]
    rfl

/-- Settles O44: the flag write falls between two instructions and writes `paused` and the control context's view. -/
theorem setPauseWritesFlagOnly : Obligations.SetPauseWritesFlagOnly := by
  intro s value rest hi hp
  exact ⟨(s.setInputs rest).setPause value, step_of_perform_eq_afterReset hp hi rfl, rfl, rfl, rfl, fun _ => rfl,
    fun _ => rfl, rfl, rfl, rfl, ⟨fun _ => rfl, fun _ => rfl, rfl⟩, fun _ => rfl, rfl, rfl, rfl⟩

/-- A parked inspection hands out what it reads, and does nothing else. -/
theorem inspect_of_idle {s : State} (hp : s.phase = .idle) (hv : s.view ≠ .unparked) :
    s.inspect = .next (s.emit (.inspected s.g s.o s.pc s.irqState)) := by
  cases h : s.view <;> simp_all [State.inspect]

/-- Settles O49: a read of `pausedAck` falls between two instructions, an inspection between invocations. -/
theorem controlContextReadsReturnState : Obligations.ControlContextReadsReturnState := by
  refine ⟨fun s rest hi hp => ?_, fun s rest hi hp hv => ?_⟩
  · rw [step_of_perform_eq_afterReset hp hi rfl]
    simp [State.readAck, State.emit, State.setView, State.setInputs]
  · rw [step_action (by simp [hp]) hi]
    exact inspect_of_idle (s := s.setInputs rest) hp hv

/-! ### No overlapping invocation, R178 and R179 -/

/-- Settles O51: both invocations test the phase first, and the single-step call then tests the view. -/
theorem stepsNeverOverlap : Obligations.StepsNeverOverlap := by
  refine fun s rest => ⟨fun hp hi => ?_, fun hp hi hv => ?_⟩
  · rcases hi with hi | hi
    · rw [step_action (by simp [hp]) hi]
      simp [State.perform, State.tick, hp]
    · rw [step_action (by simp [hp]) hi]
      simp [State.perform, State.singleStep, hp]
  · rw [step_action (by simp [hp]) hi]
    simp [State.perform, State.singleStep, hp, hv]

/-! ### `pausedAck` over one step, R176 -/

/-- No instruction writes `pausedAck`. -/
theorem exec_next_pausedAck {i : Instr} {s t : State} (h : exec i s = .next t) : t.pausedAck = s.pausedAck := by
  obtain ⟨-, hack, -⟩ := exec_next_keeps h
  exact hack

/-- Of the host's actions only `Reset` writes `pausedAck`. -/
theorem perform_next_pausedAck {s t : State} {a : Action} (ha : a.isTurn = false)
    (h : State.perform a s = .next t) :
    t.pausedAck = s.pausedAck ∨ (t.pausedAck = false ∧ ∃ image, a = .reset image) := by
  cases a with
  | tick | engine | singleStep => cases ha
  | reset image =>
    obtain ⟨-, rfl⟩ := perform_next_cases h
    exact .inr ⟨rfl, image, rfl⟩
  | requestInterrupt | setPause | readAck =>
    obtain ⟨-, rfl⟩ := perform_next_cases h
    exact .inl (by simp)
  | setBrightness =>
    cases h
    exact .inl rfl
  | inspect | writeGeneral | writeGeneralByte | writeOutput | writeOutputByte | writeCell =>
    obtain ⟨-, -, rfl⟩ := perform_next_cases h
    exact .inl rfl

/-- What a step can do to `pausedAck`: keep it, write it at the start of a run-mode invocation, or clear it at the
start of a single-step call or by `Reset` (R29). -/
theorem step_next_pausedAck {s t : State} (h : step s = .next t) :
    t.pausedAck = s.pausedAck ∨
    (∃ rest, RunInvocationNext s rest ∧ t = (s.setInputs rest).beginRun) ∨
    (t.pausedAck = false ∧ s.phase = .idle ∧ t.phase = .single) ∨
    (t.pausedAck = false ∧ ∃ image rest, s.inputs = .reset image :: rest) := by
  rcases step_next_cases h with ⟨-, i, u, -, he, rfl⟩ | ⟨-, -, i, -, he⟩ | ⟨hp, hi, -⟩ | ⟨hp, a, rest, hi, ha⟩
  · exact .inl ((endSingle_pausedAck u).trans (exec_next_pausedAck he))
  · exact .inl (exec_next_pausedAck he)
  · have hs : RunInvocationNext s [] := ⟨hp, .inl ⟨hi, rfl⟩⟩
    rw [step_runInvocationNext hs] at h
    cases h
    exact .inr (.inl ⟨[], hs, rfl⟩)
  · cases a with
    | tick =>
      obtain ⟨hidle, ht⟩ := perform_next_cases ha
      exact .inr (.inl ⟨rest, ⟨hidle, .inr hi⟩, ht⟩)
    | singleStep =>
      obtain ⟨hidle, -, rfl⟩ := perform_next_cases ha
      exact .inr (.inr (.inl ⟨by simp, hidle, by simp⟩))
    | engine =>
      rcases perform_next_cases ha with ⟨-, rfl⟩ | ⟨-, i, -, he⟩ | ⟨hsingle, -⟩
      · exact .inl rfl
      · exact .inl (exec_next_pausedAck (s := s.setInputs rest) he)
      · exact absurd hsingle hp
    | _ =>
      rcases perform_next_pausedAck rfl ha with hkept | ⟨ht, image, hreset⟩
      · exact .inl hkept
      · exact .inr (.inr (.inr ⟨ht, image, rest, hreset ▸ hi⟩))

/-- Settles O46: a run-mode invocation leaves `pausedAck` equal to `paused`, and every other write clears it. -/
theorem ackSetByPausedRunOnly : Obligations.AckSetByPausedRunOnly := by
  intro s t h
  rcases step_next_pausedAck h with hkept | ⟨rest, ⟨hidle, hi⟩, rfl⟩ | ⟨ht, hidle, hsingle⟩ | ⟨ht, hreset⟩
  · exact ⟨fun hs ht => by simp [hkept, hs] at ht, fun hs ht => by simp [hkept, hs] at ht⟩
  · refine ⟨fun _ ht => ?set, fun _ ht => ?clear⟩
    case set =>
      have hpaused : s.paused = true := by simpa using ht
      rw [beginRun_of_paused (by exact hpaused)]
      exact ⟨hpaused, hidle, hidle, rfl, hi.imp (fun hnil => hnil.1) (fun htick => ⟨rest, htick⟩)⟩
    case clear =>
      have hpaused : s.paused = false := by simpa using ht
      rw [beginRun_of_not_paused (by exact hpaused)]
      exact .inl ⟨hidle, .inl rfl⟩
  · exact ⟨fun _ ht' => by simp [ht] at ht', fun _ _ => .inl ⟨hidle, .inr hsingle⟩⟩
  · exact ⟨fun _ ht' => by simp [ht] at ht', fun _ _ => .inr hreset⟩

end Sys2Proof.Machine
end

section
/-! Reset and hazards: `Reset` on an engine without an invocation in progress, the shared writes of a parked control
context, and a request that waits while the engine is paused (70_reset_and_hazards.md). -/

namespace Sys2Proof.Machine

/-! ### A request while the engine is paused, R221 -/

/-- An idle engine with no action listed but ticks comes to a run-mode invocation, and ticks alone stay listed. -/
theorem exists_runInvocationNext_of_ticks {s : State} (hp : s.phase = .idle)
    (hticks : ∀ act, act ∈ s.inputs → act = .tick) :
    ∃ rest, RunInvocationNext s rest ∧ ∀ act, act ∈ rest → act = .tick := by
  cases hi : s.inputs with
  | nil => exact ⟨[], ⟨hp, .inl ⟨hi, rfl⟩⟩, by simp⟩
  | cons a rest =>
    obtain ⟨rfl, hrest⟩ : a = .tick ∧ ∀ act, act ∈ rest → act = .tick := by simpa [hi] using hticks
    exact ⟨rest, ⟨hp, .inr hi⟩, hrest⟩

/-- Any number of ticks of a paused engine writes `pausedAck` and takes ticks off the list, and does nothing else. -/
theorem run_of_paused_ticks (n : Nat) {s : State} (hp : s.phase = .idle)
    (hticks : ∀ act, act ∈ s.inputs → act = .tick) (hpaused : s.paused = true) :
    ∃ ack rest, Sys2Proof.core.run n s = .next ((s.setAck ack).setInputs rest) := by
  induction n generalizing s with
  | zero => exact ⟨s.pausedAck, s.inputs, rfl⟩
  | succ n ih =>
    obtain ⟨rest, hnext, hrest⟩ := exists_runInvocationNext_of_ticks hp hticks
    have hstep : step s = .next ((s.setInputs rest).setAck true) := by
      rw [step_runInvocationNext hnext, beginRun_of_paused (by exact hpaused)]
    obtain ⟨ack, rest', hrun⟩ := ih (s := (s.setInputs rest).setAck true) hp hrest hpaused
    exact ⟨ack, rest', (run_succ_of_next (M := Sys2Proof.core) hstep).trans hrun⟩

/-- What the entry makes of a request: ONGOING at the marker, or NONE where there is no marker (R164, R165). -/
def Entered (s t : State) : Prop :=
  (∀ a, findMarker s.mem s.irqVec = some a → t.irqState = .ongoing ∧ t.pc.toNat = a) ∧
    (findMarker s.mem s.irqVec = none → t.irqState = .none)

theorem entered_interruptEntry (s : State) : Entered s s.interruptEntry := by
  refine ⟨fun a hfind => ?_, fun hnone => ?_⟩
  · obtain ⟨-, -, -, -, -, -, hpc, hirq, -⟩ := entryFoundSavesAndVectors s a hfind
    exact ⟨hirq, hpc⟩
  · obtain ⟨hirq, -⟩ := entryNotFoundDiscardsRequest s hnone
    exact hirq

/-- Settles O48: a paused run-mode invocation leaves the request alone, by induction on their number, and O31 gives the
entry by the invocation that passes step 1. -/
theorem pendingSurvivesPausedRuns : Obligations.PendingSurvivesPausedRuns := by
  obtain ⟨hrun, hsingle, -⟩ := entryHookAtInvocationStart
  refine ⟨fun n s hp hticks hpaused hirq => ?survives, fun s hirq hnext => ?entered⟩
  case survives =>
    obtain ⟨ack, rest, hruns⟩ := run_of_paused_ticks n hp hticks hpaused
    exact ⟨_, hruns, hirq, rfl, rfl, hpaused, hp⟩
  case entered =>
    rcases hnext with ⟨rest, hnext, hpaused⟩ | ⟨rest, hnext⟩
    · exact ⟨_, (hrun s rest hnext hpaused).1 hirq,
        entered_interruptEntry { s with pausedAck := false, inputs := rest }⟩
    · exact ⟨_, (hsingle s rest hnext).1 hirq,
        entered_interruptEntry { s with pausedAck := false, inputs := rest }⟩

/-! ### Reset, R200 -/

/-- Everything that R200 names, and the run-mode invocation that comes next passes the pause check with no request to
enter. -/
theorem resetLeaves_doReset (image : Config.Image) (rest : List Action) (s : State) :
    ResetLeaves image rest s ((s.setInputs rest).doReset image) where
  banks i := ⟨Bank.readWord_zero i, Bank.readWord_zero i⟩
  saved := ⟨fun i => ⟨Bank.readWord_zero i, Bank.readWord_zero i⟩, rfl⟩
  pc := rfl
  flags := ⟨rfl, rfl⟩
  irq := ⟨rfl, rfl, rfl⟩
  cells _ ha := Memory.read_ofImage image ha
  outside := ⟨rfl, rfl, rfl⟩
  notBusy := rfl
  starts more hnext := by
    rw [step_runInvocationNext hnext, beginRun_of_not_paused rfl, enterPending_of_not_pending (by simp)]
    rfl

/-- With no invocation in progress `Reset` completes. -/
theorem step_reset {s : State} {image : Config.Image} {rest : List Action}
    (hp : s.phase = .noProgram ∨ s.phase = .idle) (hi : s.inputs = .reset image :: rest) :
    step s = .next ((s.setInputs rest).doReset image) := by
  rw [step_action (by rcases hp with hp | hp <;> simp [hp]) hi]
  rcases hp with hp | hp <;> simp [State.perform, State.resetAction, hp]

/-- Settles O2: `Reset` tests the phase alone, so it completes before the first `Reset` and while parked. -/
theorem resetReinitialises : Obligations.ResetReinitialises := by
  refine ⟨fun s image rest hp hi => ?_, fun s image rest hp hi => ?_⟩
  · exact ⟨_, step_reset (hp.imp_right fun hparked => hparked.1) hi, resetLeaves_doReset image rest s⟩
  · rw [step_action (by simp [hp]) hi]
    simp [State.perform, State.resetAction, hp]

/-- Settles O52: after `Reset` the memory is canonical, and no promise of the handshake has been made. -/
theorem resetMeetsInvariant : Obligations.ResetMeetsInvariant where
  memWf := reset_mem_wf
  parkedAcked hview := nomatch hview
  steppedPaused hview := nomatch hview
  busyUnacked _ := rfl
  singleParked hphase := nomatch hphase
  runUnparked _ := rfl

/-! ### Shared writes of the control context, R177 and R211 -/

/-- A shared write of a parked control context completes. -/
theorem step_of_perform_eq_parkedWrite {s t : State} {a : Action} {rest : List Action} (hp : s.phase = .idle)
    (hv : s.view = .parked) (hi : s.inputs = a :: rest)
    (ha : State.perform a (s.setInputs rest) = (s.setInputs rest).parkedWrite t) : step s = .next t := by
  rw [step_action (by simp [hp]) hi, ha]
  simp [State.parkedWrite, hp, hv]

/-- At another time there is no such move. -/
theorem step_of_perform_eq_parkedWrite_of_not_parked {s t : State} {a : Action} {rest : List Action}
    (h : s.phase = .idle ∧ s.view ≠ .parked ∨ s.phase = .run) (hi : s.inputs = a :: rest)
    (ha : State.perform a (s.setInputs rest) = (s.setInputs rest).parkedWrite t) :
    step s = .refused .notParked := by
  rcases h with ⟨hp, hv⟩ | hp
  · rw [step_action (by simp [hp]) hi, ha]
    cases hview : s.view <;> simp_all [State.parkedWrite]
  · rw [step_action (by simp [hp]) hi, ha]
    simp [State.parkedWrite, hp]

/-- The cells after a write of one of them. -/
theorem Memory.read_write {m : Memory} (hm : Memory.wf m = true) (a c : Nat) (v : Byte) :
    Memory.read (Memory.write m a v) c = if c = a then v else Memory.read m c := by
  split
  · rw [‹c = a›, Memory.read_write_same hm]
  · exact Memory.read_write_other ‹_›

/-- Settles O47: each of the five writes is a parked write, which the phase and the view allow or refuse, and its effect
is that of the bank or of the memory. -/
theorem sharedWritesOnlyWhileParked : Obligations.SharedWritesOnlyWhileParked := by
  refine ⟨fun s i v rest hp hv => ⟨fun hi => ?general, fun hi => ?output⟩,
    fun s j v rest hp hv => ⟨fun hi => ?generalByte, fun hi => ?outputByte⟩,
    fun s a v rest hwf hp hv hi => ?cell, fun s act rest hi h hact => ?refused⟩
  case general =>
    exact ⟨_, step_of_perform_eq_parkedWrite hp hv hi rfl, fun j => s.g.readWord_writeWord i j v, fun _ => rfl,
      fun _ => rfl⟩
  case output =>
    exact ⟨_, step_of_perform_eq_parkedWrite hp hv hi rfl, fun j => s.o.readWord_writeWord i j v, fun _ => rfl,
      fun _ => rfl⟩
  case generalByte =>
    exact ⟨_, step_of_perform_eq_parkedWrite hp hv hi rfl, fun k => s.g.readByte_writeByte j k v, fun _ => rfl,
      fun _ => rfl⟩
  case outputByte =>
    exact ⟨_, step_of_perform_eq_parkedWrite hp hv hi rfl, fun k => s.o.readByte_writeByte j k v, fun _ => rfl,
      fun _ => rfl⟩
  case cell =>
    exact ⟨_, step_of_perform_eq_parkedWrite hp hv hi rfl, fun c => Memory.read_write hwf a.toNat c v, fun _ => rfl,
      fun _ => rfl, rfl⟩
  case refused =>
    rcases hact with ⟨_, _, rfl⟩ | ⟨_, _, rfl⟩ | ⟨_, _, rfl⟩ | ⟨_, _, rfl⟩ | ⟨_, _, rfl⟩ <;>
      exact step_of_perform_eq_parkedWrite_of_not_parked h hi rfl

end Sys2Proof.Machine
end

section
/-! `Reset` of an idle engine that is not parked (70_reset_and_hazards.md), and the words that the spec's encodings write
out (30_encoding.md). -/

namespace Sys2Proof.Machine

/-- Settles O55: `Reset` does not look at the control context's view, so it completes while idle as it does while parked
(O2). -/
theorem resetOfUnparkedEngine : Obligations.ResetOfUnparkedEngine :=
  fun s image rest hidle _ hi => ⟨_, step_reset (.inr hidle) hi, resetLeaves_doReset image rest s⟩

/-- Settles O3: in each word the operand bytes that its leading byte consumes are there and assemble to the
instruction. -/
theorem specWordsDecode : Obligations.SpecWordsDecode := by
  unfold Obligations.SpecWordsDecode
  simp only [decode_cons_eq_ok_iff]
  decide

end Sys2Proof.Machine
end
